-- ==== Sys2Proof/Word.lean ====
section
/-! DEFINITION. The one word type of the block: a byte (00_scope.md R10, 20_memory.md R50). -/

namespace Sys2Proof

/-- R10: a byte is 8 bits, an unsigned value 0 to 255. No value of the block spans more than one byte (R50). -/
abbrev Byte := BitVec 8

end Sys2Proof
end

