-- ==== Sys2Proof/Config.lean ====
section
/-! DEFINITION. The configuration record `Cfg` (00_scope.md R7), its reference value, and the free values of the
application collaborator (42_engine_dispatch.md R186). -/

namespace Sys2Proof

/-- `CSUM_MODE` of R7: which checksum step R92 the link uses (OPEN, D5). -/
inductive ChecksumMode where
  | add8
  | xor8
  deriving DecidableEq, Repr

/-- `ROLE` of R7: which end of the link the instance stands at (OPEN, D15; R233). -/
inductive Role where
  | device
  | host
  deriving DecidableEq, Repr

/-- The configuration record of R7. `MSG_CODE` and `CMD_CODE` are functions on the two closed enumerations of R80 and
R81; here each is written as one byte per member, so that the record is plain data. `BUF_SIZE` is fixed at 255 (R7, R30)
and is `bufSize` below. Its constraints are `Cfg.Valid` (WellFormed.lean). -/
structure Cfg where
  startByte       : Byte
  endByte         : Byte
  csumMode        : ChecksumMode
  ackCode         : Byte
  nackCode        : Byte
  successCode     : Byte
  errorCode       : Byte
  identityCode    : Byte
  dataCode        : Byte
  getIdentityCode : Byte
  getDataCode     : Byte
  role            : Role
  identityString  : List Byte
  deriving DecidableEq, Repr

/-- `BUF_SIZE` of R7: "fixed at 255", forced by the LENGTH field (R30). -/
def bufSize : Nat := 255

/-- The reference configuration: the fourth column of R7's table. DESIGN CHOICE, unsafe, log entry 5: the values are the
spec's own example values (D2, D4, D5, D15) and `State.reset` carries them; statements quantify over every valid `Cfg`. -/
def Cfg.reference : Cfg where
  startByte       := 0xA5
  endByte         := 0x5A
  csumMode        := .add8
  ackCode         := 0x00
  nackCode        := 0x01
  successCode     := 0x02
  errorCode       := 0x03
  identityCode    := 0x04
  dataCode        := 0x05
  getIdentityCode := 0x80
  getDataCode     := 0x81
  role            := .device
  identityString  := [0x53, 0x41, 0x56, 0x49, 0x4F, 0x55, 0x52]

/-! Free values: what the application collaborator answers to `currentData()` when the state lists no answer (R186: "a
model takes it from an oracle or a parameter function"). Each is applied to the state's counter of draws and to the
arguments of the Command; nothing evaluates them. DESIGN CHOICE, safe, log entry 6. -/

/-- Whether the `n`-th answer drawn, for a Command with arguments `args`, is a failure (R188). -/
opaque Config.appFails : Nat → List Byte → Bool
/-- How many bytes that answer carries: a byte, so never more than the 255 that R186 allows. -/
opaque Config.appLength : Nat → List Byte → Byte
/-- Byte `i` of that answer. -/
opaque Config.appByte : Nat → List Byte → Nat → Byte

end Sys2Proof
end

