-- ==== Sys2Proof/Syntax.lean ====
section
/-! DEFINITION. The two closed enumerations, the typed values, and the instructions: one constructor per row of
spec/opcode_table.json (30_encoding.md R80, R81, R96, R99). -/

namespace Sys2Proof

/-- R80: the closed enumeration MessageKind, in the source's order. -/
inductive MessageKind where
  | ack
  | nack
  | success
  | error
  | identity
  | data
  deriving DecidableEq, Repr

/-- R81: the closed enumeration CommandKind. -/
inductive CommandKind where
  | getIdentity
  | getData
  deriving DecidableEq, Repr

/-- A Message (00_scope.md glossary): a kind and a payload; an absent payload is the empty sequence (R96). -/
structure Message where
  kind    : MessageKind
  payload : List Byte
  deriving DecidableEq, Repr

/-- A Command (00_scope.md glossary): a kind and its arguments, which are the payload bytes (R96). -/
structure Command where
  kind : CommandKind
  args : List Byte
  deriving DecidableEq, Repr

/-- The instructions. A KIND row is an intact frame of that kind, with its logical payload as the operand (R70, R74,
R83); a SENTINEL row is the receipt of that one byte (R71, R76). -/
inductive Instr where
  /-- row GET_IDENTITY, R190 -/
  | getIdentity (args : List Byte)
  /-- row GET_DATA, R191 -/
  | getData (args : List Byte)
  /-- row ACK, R192 -/
  | ack (payload : List Byte)
  /-- row NACK, R193 -/
  | nack (payload : List Byte)
  /-- row SUCCESS, R194 -/
  | success (payload : List Byte)
  /-- row ERROR, R195 -/
  | error (payload : List Byte)
  /-- row IDENTITY, R196 -/
  | identity (payload : List Byte)
  /-- row DATA, R197 -/
  | data (payload : List Byte)
  /-- row START_BYTE, R71 -/
  | startByte
  /-- row END_BYTE, R76 -/
  | endByte
  deriving DecidableEq, Repr

end Sys2Proof
end

