-- ==== Sys2Proof/WellFormed.lean ====
section
/-! DEFINITION. What a well-formed instruction, message, command and configuration is (41_tx_encode.md R162,
00_scope.md R7 and R8). -/

namespace Sys2Proof

/-- R162: a payload has at most 255 bytes, the range of the LENGTH field (R73). -/
abbrev PayloadFits (p : List Byte) : Prop := p.length ≤ 255

/-- R162, R96: a Message carries at most 255 payload bytes. -/
abbrev Message.WellFormed (m : Message) : Prop := PayloadFits m.payload

/-- R162, R96: a Command carries at most 255 bytes of arguments. -/
abbrev Command.WellFormed (c : Command) : Prop := PayloadFits c.args

/-- The payload operand of an instruction; a sentinel has none. -/
def Instr.payload : Instr → List Byte
  | .getIdentity p => p
  | .getData p => p
  | .ack p => p
  | .nack p => p
  | .success p => p
  | .error p => p
  | .identity p => p
  | .data p => p
  | .startByte => []
  | .endByte => []

/-- An instruction is well formed when its payload fits the LENGTH field (R73, R83: no kind constrains it further). -/
abbrev Instr.WellFormed (i : Instr) : Prop := PayloadFits i.payload

/-- The two sentinels and the eight kind codes, in one list. -/
def Cfg.reservedBytes (cfg : Cfg) : List Byte :=
  [cfg.startByte, cfg.endByte, cfg.ackCode, cfg.nackCode, cfg.successCode, cfg.errorCode, cfg.identityCode,
    cfg.dataCode, cfg.getIdentityCode, cfg.getDataCode]

/-- The constraints of R7 and R8: `|SENTINELS| = 2`, `|KIND_CODES| = 8` (both tables injective, their ranges disjoint)
and `SENTINELS ∩ KIND_CODES = ∅`, which together say that the ten bytes are pairwise different; and the identity string
has 0 to 255 bytes. A configuration that breaks them is outside the rules (U18). -/
abbrev Cfg.Valid (cfg : Cfg) : Prop := cfg.reservedBytes.Nodup ∧ PayloadFits cfg.identityString

end Sys2Proof
end

