-- ==== Sys2Proof/Decode.lean ====
section
/-! DEFINITION. Byte classes, the checksum, escaping, the code tables, the frame decoder (total on any bytes, rejecting by
name) and after it the encoder (30_encoding.md, 41_tx_encode.md), in a given configuration. -/

namespace Sys2Proof

/-! ### Byte classes, checksum, escaping -/

/-- The byte classes of R13. -/
inductive ByteClass where
  | start
  | stop
  | ordinary
  deriving DecidableEq, Repr

/-- R13: a byte is START, END or ordinary; exactly one holds because the sentinels differ (R7). -/
def Cfg.classify (cfg : Cfg) (b : Byte) : ByteClass :=
  if b = cfg.startByte then .start else if b = cfg.endByte then .stop else .ordinary

/-- R8: `b ∈ SENTINELS`. -/
def Cfg.isSentinel (cfg : Cfg) (b : Byte) : Bool := b == cfg.startByte || b == cfg.endByte

/-- R92: the checksum step. `ADD8` discards the carry out of bit 7; `XOR8` is exclusive or. -/
def Cfg.csStep (cfg : Cfg) (acc b : Byte) : Byte :=
  match cfg.csumMode with
  | .add8 => acc + b
  | .xor8 => acc ^^^ b

/-- R93: the frame checksum, `fold cs_step over [k, l] ++ p starting from 0`. -/
def Cfg.cs (cfg : Cfg) (k l : Byte) (p : List Byte) : Byte := (k :: l :: p).foldl cfg.csStep 0#8

/-- R88: the escape function on one logical payload byte. -/
def Cfg.esc (cfg : Cfg) (b : Byte) : List Byte := if cfg.isSentinel b then [b, b] else [b]

/-- R88, R74: the escaped payload, the concatenation of the escaped bytes in order. -/
def Cfg.escape (cfg : Cfg) (p : List Byte) : List Byte := p.flatMap cfg.esc

/-- R74: `s`, the number of logical payload bytes whose value is a sentinel. -/
def Cfg.sentinelCount (cfg : Cfg) (p : List Byte) : Nat := p.countP cfg.isSentinel

/-! ### The code tables -/

/-- `MSG_CODE` of R7 and R80. -/
def Cfg.msgCode (cfg : Cfg) : MessageKind → Byte
  | .ack => cfg.ackCode
  | .nack => cfg.nackCode
  | .success => cfg.successCode
  | .error => cfg.errorCode
  | .identity => cfg.identityCode
  | .data => cfg.dataCode

/-- `CMD_CODE` of R7 and R81. -/
def Cfg.cmdCode (cfg : Cfg) : CommandKind → Byte
  | .getIdentity => cfg.getIdentityCode
  | .getData => cfg.getDataCode

/-- The members of MessageKind. -/
def MessageKind.all : List MessageKind := [.ack, .nack, .success, .error, .identity, .data]

/-- The members of CommandKind. -/
def CommandKind.all : List CommandKind := [.getIdentity, .getData]

/-- `MSG_CODES` of R8. -/
def Cfg.msgCodes (cfg : Cfg) : List Byte := MessageKind.all.map cfg.msgCode

/-- `CMD_CODES` of R8. -/
def Cfg.cmdCodes (cfg : Cfg) : List Byte := CommandKind.all.map cfg.cmdCode

/-- `KIND_CODES` of R8. -/
def Cfg.kindCodes (cfg : Cfg) : List Byte := cfg.msgCodes ++ cfg.cmdCodes

/-- `RX_KINDS` of R8: the KIND bytes the receive verdict accepts, by role (C3, D15). -/
def Cfg.rxKinds (cfg : Cfg) : List Byte :=
  match cfg.role with
  | .device => cfg.cmdCodes
  | .host => cfg.msgCodes

/-- `MSG_CODE^-1` of R184: the MessageKind a KIND byte stands for, if any. -/
def Cfg.msgOf (cfg : Cfg) (k : Byte) : Option MessageKind := MessageKind.all.find? fun m => cfg.msgCode m == k

/-- `CMD_CODE^-1` of R181: the CommandKind a KIND byte stands for, if any. -/
def Cfg.cmdOf (cfg : Cfg) (k : Byte) : Option CommandKind := CommandKind.all.find? fun c => cfg.cmdCode c == k

/-- The instruction a received Message is. -/
def Message.toInstr (m : Message) : Instr :=
  match m.kind with
  | .ack => .ack m.payload
  | .nack => .nack m.payload
  | .success => .success m.payload
  | .error => .error m.payload
  | .identity => .identity m.payload
  | .data => .data m.payload

/-- The instruction a received Command is. -/
def Command.toInstr (c : Command) : Instr :=
  match c.kind with
  | .getIdentity => .getIdentity c.args
  | .getData => .getData c.args

/-- R96, R99: the typed instruction of a frame's KIND byte and logical payload; `none` for a KIND byte outside
`KIND_CODES` (R85, R198). -/
def typeFrame (cfg : Cfg) (k : Byte) (p : List Byte) : Option Instr :=
  match cfg.cmdOf k with
  | some c => some (Command.toInstr ⟨c, p⟩)
  | none =>
    match cfg.msgOf k with
    | some m => some (Message.toInstr ⟨m, p⟩)
    | none => none

/-! ### The decoder -/

/-- Why a byte sequence is not an instruction. The first six follow the causes of R155 and R156, in the order of R228. -/
inductive DecodeError where
  /-- the bytes end before the frame does -/
  | needMoreData
  /-- the first byte is not START (R71), and it is not one of the two sentinels alone -/
  | notStart
  /-- END in the KIND position, or a single END in the PAYLOAD field -/
  | prematureEnd
  /-- START in the KIND position, or a single START in the PAYLOAD field -/
  | unexpectedStart
  /-- the byte after CHECKSUM is not END -/
  | missingEnd
  /-- END in place, CHECKSUM differs -/
  | badChecksum
  /-- END in place, checksum good, KIND outside `KIND_CODES` -/
  | unknownKind
  /-- bytes after END: more than one instruction -/
  | trailingBytes
  deriving DecidableEq, Repr

/-- The error of a byte in the PAYLOAD or KIND position that is a sentinel standing where it cannot be data (R155). -/
def Cfg.sentinelError (cfg : Cfg) (b : Byte) : DecodeError :=
  if b = cfg.startByte then .unexpectedStart else .prematureEnd

/-- R89: recover `n` logical bytes from the wire bytes; pairing is greedy from the start of the field and stops as soon
as `n` bytes are recovered. -/
def unescape (cfg : Cfg) : Nat → List Byte → Except DecodeError (List Byte × List Byte)
  | 0, bs => .ok ([], bs)
  | _ + 1, [] => .error .needMoreData
  | n + 1, b :: bs =>
    if cfg.isSentinel b then
      match bs with
      | [] => .error .needMoreData
      | c :: cs =>
        if c = b then
          match unescape cfg n cs with
          | .ok (p, rest) => .ok (b :: p, rest)
          | .error e => .error e
        else .error (cfg.sentinelError b)
    else
      match unescape cfg n bs with
      | .ok (p, rest) => .ok (b :: p, rest)
      | .error e => .error e

/-- The fields after LENGTH (R70): payload, CHECKSUM, END, then nothing. -/
def decodeBody (cfg : Cfg) (k l : Byte) (bs : List Byte) : Except DecodeError Instr :=
  match unescape cfg l.toNat bs with
  | .error e => .error e
  | .ok (p, c :: e :: rest) =>
    if e ≠ cfg.endByte then .error .missingEnd
    else if c ≠ cfg.cs k l p then .error .badChecksum
    else
      match typeFrame cfg k p with
      | none => .error .unknownKind
      | some i => if rest = [] then .ok i else .error .trailingBytes
  | .ok _ => .error .needMoreData

/-- The decoder: the instruction that a byte sequence is, whole. One byte alone is a SENTINEL row (R99) or nothing; a
longer sequence is one frame (R70), of either enumeration (whether the kind is legal depends on the role and is judged by
the machine, R150). -/
def decode (cfg : Cfg) : List Byte → Except DecodeError Instr
  | [] => .error .needMoreData
  | [b] =>
    match cfg.classify b with
    | .start => .ok .startByte
    | .stop => .ok .endByte
    | .ordinary => .error .notStart
  | b :: k :: bs =>
    if b ≠ cfg.startByte then .error .notStart
    else
      match cfg.classify k with
      | .start => .error .unexpectedStart
      | .stop => .error .prematureEnd
      | .ordinary =>
        match bs with
        | [] => .error .needMoreData
        | l :: bs' => decodeBody cfg k l bs'

/-! ### The encoder -/

/-- R160: `encode(k, p)`, the frame of a kind byte and a logical payload. -/
def encodeFrame (cfg : Cfg) (k : Byte) (p : List Byte) : List Byte :=
  [cfg.startByte, k, BitVec.ofNat 8 p.length] ++ cfg.escape p
    ++ [cfg.cs k (BitVec.ofNat 8 p.length) p, cfg.endByte]

/-- The wire bytes of an instruction: a frame (R160, R166) for a KIND row, the byte itself for a SENTINEL row. -/
def encode (cfg : Cfg) : Instr → List Byte
  | .getIdentity p => encodeFrame cfg cfg.getIdentityCode p
  | .getData p => encodeFrame cfg cfg.getDataCode p
  | .ack p => encodeFrame cfg cfg.ackCode p
  | .nack p => encodeFrame cfg cfg.nackCode p
  | .success p => encodeFrame cfg cfg.successCode p
  | .error p => encodeFrame cfg cfg.errorCode p
  | .identity p => encodeFrame cfg cfg.identityCode p
  | .data p => encodeFrame cfg cfg.dataCode p
  | .startByte => [cfg.startByte]
  | .endByte => [cfg.endByte]

/-! ### The opcode table's words -/

/-- The wire bytes of a table word in configuration `cfg`: a sentinel is itself; any other byte is the KIND byte of a
frame whose LENGTH is 0 (the operand bits the table does not give are 0), with the CHECKSUM and the two delimiters the
frame format adds (R70). -/
def tableWordBytes (cfg : Cfg) (w : Nat) : List Byte :=
  if cfg.isSentinel (BitVec.ofNat 8 w) then [BitVec.ofNat 8 w] else encodeFrame cfg (BitVec.ofNat 8 w) []

/-- The instruction the decoder reads from a word of spec/opcode_table.json, which is in the reference configuration
(R99). A row has one byte; a word with bits above it is no row. -/
def decodeTableWord (nbits w : Nat) : Option Instr :=
  if nbits < 8 ∨ 256 ≤ w then none
  else
    match decode Cfg.reference (tableWordBytes Cfg.reference w) with
    | .ok i => some i
    | .error _ => none

end Sys2Proof
end

