-- ==== Sys2Proof/Machine/State.lean ====
section
/-! DEFINITION. The state of one engine instance (10_state.md), the reasons a step can stop, and the state after reset. -/

namespace Sys2Proof.Machine

open Sys2Proof

/-- R26: the seven values of `RXS`. -/
inductive RxState where
  | awaitingStart
  | kind
  | length
  | payload
  | payloadPend
  | checksum
  | endPos
  deriving DecidableEq, Repr

/-- R29: the three values of `TXS`. -/
inductive TxState where
  | idle
  | encoding
  | transmitting
  deriving DecidableEq, Repr

/-- R222: the five reasons of `Malformed`. -/
inductive Reason where
  | prematureEnd
  | unexpectedStart
  | missingEnd
  | badChecksum
  | unknownKind
  deriving DecidableEq, Repr

/-- R12: the event of one receive step. -/
inductive Event where
  | needMoreData
  | frame (kind : Byte) (payload : List Byte)
  | malformed (reason : Reason)
  deriving DecidableEq, Repr

/-- `BUF` (R30): index and byte, in the canonical form of `Memory.wf`. An index that is not listed holds no value (R31,
D20; log entry 2), so no entry can equal what an unlisted index reads as. -/
abbrev Memory := List Host.Cell

/-- The canonical form of `BUF`: indices strictly rising (so each at most once) and inside the index space 0 to 254 of
R58. -/
abbrev Memory.wf (m : Memory) : Prop := m.Pairwise (fun x y => x.1 < y.1) ∧ ∀ c ∈ m, c.1 < bufSize

/-- The receive registers of R20: everything `rx_step` (R110) reads and writes. -/
structure Rx where
  /-- `RXS`, R26 -/
  rxs   : RxState
  /-- `KIND_R`, R21 -/
  kindR : Byte
  /-- `LEN_R`, R22 -/
  lenR  : Byte
  /-- `CNT`, R23 -/
  cnt   : Byte
  /-- `ACC`, R24 -/
  acc   : Byte
  /-- `CSOK`, R28 -/
  csok  : Bool
  /-- `PEND_R`, R25 -/
  pendR : Byte
  /-- `BUF`, R30 -/
  buf   : Memory
  deriving DecidableEq, Repr

/-- What the environment does to the block between two steps (95_test_vectors.md section 6): it presents a received byte
(R35, R110), asks for a transmission (R171), or resets the block (R260). -/
inductive Input where
  | rx (b : Byte)
  | request (kind : Byte) (payload : List Byte)
  | reset
  deriving DecidableEq, Repr

/-- What the application answers to `currentData()` (R188, R237): bytes, or a failure with its reason code, which is an
opaque byte sequence. -/
inductive AppAnswer where
  | data (bytes : List Byte)
  | failure (reason : List Byte)
  deriving DecidableEq, Repr

/-- R38: what the engine hands upward: Commands at a Device, Messages at a Host. -/
inductive Delivery where
  | command (c : Command)
  | message (m : Message)
  deriving DecidableEq, Repr

/-- R37: one entry of `EVQ`: the reason of a `Malformed` and the index in `RXIN` of the byte whose step emitted it. -/
structure LogEntry where
  reason : Reason
  index  : Nat
  deriving DecidableEq, Repr

/-- The state of one engine instance with its boundary streams. -/
structure State where
  /-- `Cfg` (R7, R40): a parameter of every step, carried here as a field that no step writes; log entry 5 -/
  cfg     : Cfg
  /-- the receive registers and `BUF` (R20) -/
  rx      : Rx
  /-- `TXS` (R29) -/
  txs     : TxState
  /-- what the environment still has to do, oldest first: the bytes of `RXIN` not yet consumed (R35), with the send
  requests (R171) and resets (R260) between them; log entry 3 -/
  inputs  : List Input
  /-- how many bytes of `RXIN` have been consumed (R35, R37); log entry 4 -/
  rxCount : Nat
  /-- `TXQ` (R36) -/
  txq     : List Byte
  /-- `EVQ` (R37) -/
  evq     : List LogEntry
  /-- `UPQ` (R38) -/
  upq     : List Delivery
  /-- the model's own: the answers the application will give, oldest first (R186); log entry 6 -/
  app     : List AppAnswer
  /-- the model's own: how many free answers have been drawn; log entry 6 -/
  freeIdx : Nat
  deriving DecidableEq, Repr

/-- Why a step of the model stops. None is a behaviour of the block: each stands for a register combination that R32 rules
out at every step boundary after reset, so stopping there is safe. -/
inductive Fault where
  /-- The verdict (R150) or the fetch of a verdict's frame reads a `BUF` entry that holds no value: "reading it is a model
  error" (R31). Raised by `Machine.verdict`. Safe. -/
  | bufferUnwritten
  /-- A store (R126, R128) at an index outside 0 to 254 (R54, R58). Raised by `Machine.Rx.store`. Safe. -/
  | bufferRange
  /-- `RXS = PayloadPend` with a `PEND_R` that is no sentinel (R25): no rule of R128 to R135 applies. Raised by
  `Machine.rxPayloadPend`. Safe. -/
  | pendNotSentinel
  deriving DecidableEq, Repr

/-- Why a step has no meaning. -/
inductive Refusal where
  /-- An instruction without a meaning yet; raised only by a dispatch arm. Safe. -/
  | notModelled (mnemonic : String)
  /-- A send request with a payload over 255 bytes (R162, U6: "refuse"). Raised by `Machine.txRequest`. Safe. -/
  | payloadTooLong
  /-- A Dispatcher response with a payload over 255 bytes (R186, U19: "refuse"). Raised by `Machine.respond`. Safe. -/
  | dispatcherContract
  /-- A configuration that breaks R7 and R8 (U18: "refuse"). Raised by `Machine.step`. Safe. -/
  | invalidConfig
  deriving DecidableEq, Repr

/-- The receive registers after a reset (R43, R260): `RXS = AwaitingStart`, `BUF` without values; every other register is
unspecified and DEAD. DESIGN CHOICE, unsafe, log entry 1: the model names 0 for each. -/
def Rx.reset : Rx where
  rxs   := .awaitingStart
  kindR := 0#8
  lenR  := 0#8
  cnt   := 0#8
  acc   := 0#8
  csok  := false
  pendR := 0#8
  buf   := []

/-- The machine right after reset (R43, R260): the reference configuration (log entry 5), nothing presented yet (log
entry 12), the observation streams empty. -/
def State.reset : State where
  cfg     := Cfg.reference
  rx      := Rx.reset
  txs     := .idle
  inputs  := []
  rxCount := 0
  txq     := []
  evq     := []
  upq     := []
  app     := []
  freeIdx := 0

end Sys2Proof.Machine
end

