-- ==== Sys2Proof/Machine/Ops.lean ====
section
/-! DEFINITION. The named operations over `BUF`, the receive registers and the boundary streams; taking `Malformed` and
returning from it (60_exceptions.md R226, R227). -/

namespace Sys2Proof.Machine

open Sys2Proof

/-- The outcome of one step of this machine. -/
abbrev StepOutcome := Host.Outcome State Fault Refusal

/-! ### `BUF` (20_memory.md) -/

/-- `MemRead(i, 1)`: the byte entry `i` holds, if any (R31). -/
def Memory.get : Memory → Nat → Option Byte
  | [], _ => none
  | (a, v) :: m, i => if a = i then some v else Memory.get m i

/-- Put a byte at an index, keeping the indices strictly rising. -/
def Memory.put : Memory → Nat → Byte → Memory
  | [], i, v => [(i, v)]
  | (a, w) :: m, i, v =>
    if i < a then (i, v) :: (a, w) :: m
    else if i = a then (i, v) :: m
    else (a, w) :: Memory.put m i v

/-- `MemWrite(i, 1, v)`: write entry `i`, 0 to 254 (R30, R58); no other index exists. -/
def Memory.write (m : Memory) (i : Nat) (v : Byte) : Except Fault Memory :=
  if i < bufSize then .ok (m.put i v) else .error .bufferRange

/-- `BUF[0 .. n-1]` (R11): the first `n` entries, if every one of them holds a value. -/
def Memory.readFirst (m : Memory) : Nat → Option (List Byte)
  | 0 => some []
  | n + 1 =>
    match Memory.readFirst m n, Memory.get m n with
    | some p, some b => some (p ++ [b])
    | _, _ => none

/-! ### The receive registers -/

/-- The action `begin` of R112. -/
def Rx.begin (rx : Rx) : Rx := { rx with cnt := 0#8, acc := 0#8, csok := false, rxs := .kind }

/-- R116: latch the KIND byte. -/
def Rx.latchKind (cfg : Cfg) (b : Byte) (rx : Rx) : Rx :=
  { rx with kindR := b, acc := cfg.csStep 0#8 b, rxs := .length }

/-- R120: latch the LENGTH byte; every value is a length. -/
def Rx.latchLength (cfg : Cfg) (b : Byte) (rx : Rx) : Rx :=
  { rx with lenR := b, acc := cfg.csStep rx.acc b, cnt := 0#8, rxs := if b = 0#8 then .checksum else .payload }

/-- R124: hold a sentinel seen in the payload. -/
def Rx.hold (b : Byte) (rx : Rx) : Rx := { rx with pendR := b, rxs := .payloadPend }

/-- The action `store(b)` of R126: `BUF[CNT] <- b` and the three registers that follow. -/
def Rx.store (cfg : Cfg) (b : Byte) (rx : Rx) : Except Fault Rx :=
  match rx.buf.write rx.cnt.toNat b with
  | .error f => .error f
  | .ok buf =>
    .ok { rx with
      buf := buf
      acc := cfg.csStep rx.acc b
      cnt := rx.cnt + 1#8
      rxs := if rx.cnt + 1#8 = rx.lenR then .checksum else .payload }

/-- Return from `Malformed`, and the end of a verdict: `RXS <- AwaitingStart` and nothing else (R150, R152, R227: "Nothing
is restored because nothing was saved"). -/
def Rx.resync (rx : Rx) : Rx := { rx with rxs := .awaitingStart }

/-! ### The boundary streams and the sending state machine -/

/-- `tx(bytes)` (R11, R36): append to `TXQ`. -/
def State.tx (s : State) (bytes : List Byte) : State := { s with txq := s.txq ++ bytes }

/-- R163: `send(k, p)`, the whole of `Idle → Encoding → Transmitting → Idle` inside the causing step. -/
def State.send (s : State) (k : Byte) (p : List Byte) : State :=
  let encoding : State := { s with txs := .encoding }
  let f := encodeFrame encoding.cfg k p
  let transmitting : State := { encoding with txs := .transmitting }
  { transmitting.tx f with txs := .idle }

/-- R166: a typed Message is sent as `encode(MSG_CODE(kind), payload)`. -/
def State.sendMessage (s : State) (m : Message) : State := s.send (s.cfg.msgCode m.kind) m.payload

/-- R166: the send request by which a typed Message is handed to the block. -/
def Message.request (cfg : Cfg) (m : Message) : Input := .request (cfg.msgCode m.kind) m.payload

/-- R166: the send request by which a typed Command is handed to the block. -/
def Command.request (cfg : Cfg) (c : Command) : Input := .request (cfg.cmdCode c.kind) c.args

/-- R181, R184: append to `UPQ`. -/
def State.deliver (s : State) (d : Delivery) : State := { s with upq := s.upq ++ [d] }

/-- R37, R182: append `Malformed(r)` to `EVQ`, tagged with the position in `RXIN` of the byte being consumed, counted from
1. DESIGN CHOICE, unsafe, log entry 4 (the base of the index). -/
def State.logMalformed (s : State) (r : Reason) : State := { s with evq := s.evq ++ [⟨r, s.rxCount⟩] }

/-- Return from `Malformed` on the machine state (R227). -/
def State.resync (s : State) : State := { s with rx := s.rx.resync }

/-- TAKING `Malformed(r)` (R226, R182), the block's only exception: (a) it is logged; (b) no register is saved; (c) `RXS`
is already what the raising rule wrote; (d) one NACK with an empty payload is sent. -/
def State.takeMalformed (s : State) (r : Reason) : State := (s.logMalformed r).send s.cfg.nackCode []

end Sys2Proof.Machine
end

