-- ==== Sys2Proof/Machine/Flags.lean ====
section
/-! DEFINITION. The only flag, `CSOK` (10_state.md R28), and the step that writes it. -/

namespace Sys2Proof.Machine

open Sys2Proof

/-- R140: `CSOK <- 1 if b = ACC else 0`. -/
def Rx.checksumMatches (rx : Rx) (b : Byte) : Bool := b == rx.acc

/-- R140: compare the CHECKSUM byte, whatever its value; the result is held for the verdict. -/
def Rx.compareChecksum (b : Byte) (rx : Rx) : Rx := { rx with csok := rx.checksumMatches b, rxs := .endPos }

end Sys2Proof.Machine
end

