-- ==== Sys2Proof/Machine/Operands.lean ====
section
/-! DEFINITION. The operand of a received frame: its payload, read by value from `BUF` (20_memory.md R55, R56; 40_rx_decode.md
R150), and the test of its KIND (30_encoding.md R85). -/

namespace Sys2Proof.Machine

open Sys2Proof

/-- `BUF[0 .. LEN_R-1]`, the payload of the accumulated frame (R150). -/
def Rx.framePayload (rx : Rx) : Option (List Byte) := rx.buf.readFirst rx.lenR.toNat

/-- R150: `KIND_R ∈ RX_KINDS`. -/
def Rx.kindAccepted (cfg : Cfg) (rx : Rx) : Bool := cfg.rxKinds.contains rx.kindR

/-- The instruction a checksum-good accumulated frame is, when its kind is in `KIND_CODES` and its payload is there. -/
def Rx.frameInstr (cfg : Cfg) (rx : Rx) : Option Instr :=
  match rx.framePayload with
  | some p => typeFrame cfg rx.kindR p
  | none => none

end Sys2Proof.Machine
end

