-- ==== Sys2Proof/Machine/Receive.lean ====
section
/-! DEFINITION. The receive path: `rx_step` (40_rx_decode.md R110), one definition per receive position, and the
call-level view (R156). -/

namespace Sys2Proof.Machine

open Sys2Proof

/-- What a receive step gives: the next registers and one event, or a stop that R32 rules out. -/
abbrev RxResult := Except Fault (Rx × Event)

/-- A step that decides nothing (R110). -/
def more (rx : Rx) : RxResult := .ok (rx, .needMoreData)

/-- `raise Malformed(r)` (R11): the registers are what the raising rule leaves. -/
def raise (r : Reason) (rx : Rx) : RxResult := .ok (rx, .malformed r)

/-- `store(b)` as a whole step (R126, R128). -/
def storeStep (cfg : Cfg) (rx : Rx) (b : Byte) : RxResult :=
  match rx.store cfg b with
  | .ok rx' => more rx'
  | .error f => .error f

/-- R150: the verdict. Checksum, then kind; `RXS <- AwaitingStart` in every case. -/
def verdict (cfg : Cfg) (rx : Rx) : RxResult :=
  if rx.csok = false then raise .badChecksum rx.resync
  else if rx.kindAccepted cfg = false then raise .unknownKind rx.resync
  else
    match rx.framePayload with
    | some p => .ok (rx.resync, .frame rx.kindR p)
    | none => .error .bufferUnwritten

/-- `AwaitingStart`: R111, R112. -/
def rxAwaitingStart (cfg : Cfg) (rx : Rx) (b : Byte) : RxResult :=
  match cfg.classify b with
  | .start => more rx.begin
  | .stop => more rx
  | .ordinary => more rx

/-- `Kind`: R114, R115, R116. -/
def rxKind (cfg : Cfg) (rx : Rx) (b : Byte) : RxResult :=
  match cfg.classify b with
  | .start => raise .unexpectedStart rx.begin
  | .stop => raise .prematureEnd rx.resync
  | .ordinary => more (rx.latchKind cfg b)

/-- `Length`: R120, whatever the byte. -/
def rxLength (cfg : Cfg) (rx : Rx) (b : Byte) : RxResult := more (rx.latchLength cfg b)

/-- `Payload`: R124, R126. -/
def rxPayload (cfg : Cfg) (rx : Rx) (b : Byte) : RxResult :=
  match cfg.classify b with
  | .start => more (rx.hold b)
  | .stop => more (rx.hold b)
  | .ordinary => storeStep cfg rx b

/-- `PayloadPend`: R128, R130, R131, R133, R135, by the class of `PEND_R` and of the byte. -/
def rxPayloadPend (cfg : Cfg) (rx : Rx) (b : Byte) : RxResult :=
  match cfg.classify rx.pendR, cfg.classify b with
  | .start, .start => storeStep cfg rx b
  | .start, .stop => raise .unexpectedStart rx.resync
  | .start, .ordinary => raise .unexpectedStart (rx.begin.latchKind cfg b)
  | .stop, .start => raise .prematureEnd rx.begin
  | .stop, .stop => storeStep cfg rx b
  | .stop, .ordinary => raise .prematureEnd rx.resync
  | .ordinary, _ => .error .pendNotSentinel

/-- `Checksum`: R140, whatever the byte. -/
def rxChecksum (rx : Rx) (b : Byte) : RxResult := more (rx.compareChecksum b)

/-- `End`: R150, R151, R153. -/
def rxEnd (cfg : Cfg) (rx : Rx) (b : Byte) : RxResult :=
  match cfg.classify b with
  | .start => raise .missingEnd rx.begin
  | .stop => verdict cfg rx
  | .ordinary => raise .missingEnd rx.resync

/-- R110: the receive step, selected by `RXS`. -/
def rxStep (cfg : Cfg) (rx : Rx) (b : Byte) : RxResult :=
  match rx.rxs with
  | .awaitingStart => rxAwaitingStart cfg rx b
  | .kind => rxKind cfg rx b
  | .length => rxLength cfg rx b
  | .payload => rxPayload cfg rx b
  | .payloadPend => rxPayloadPend cfg rx b
  | .checksum => rxChecksum rx b
  | .endPos => rxEnd cfg rx b

/-! ### Sequences of bytes (R156, R157) -/

/-- The receive steps of a byte sequence, in order, with one event per byte (R157). -/
def rxRun (cfg : Cfg) : Rx → List Byte → Except Fault (Rx × List Event)
  | rx, [] => .ok (rx, [])
  | rx, b :: bs =>
    match rxStep cfg rx b with
    | .error f => .error f
    | .ok (rx', ev) =>
      match rxRun cfg rx' bs with
      | .error f => .error f
      | .ok (rx'', evs) => .ok (rx'', ev :: evs)

/-- The events of a run that decide something: those that are not `NeedMoreData` (R156). -/
def decisions (evs : List Event) : List Event := evs.filter fun ev => ev ≠ .needMoreData

/-- R156: one call of `decode` on the bytes now available: step until an event that decides, or until the bytes run out;
the bytes after the deciding byte stay for the next call. -/
def decodeCall (cfg : Cfg) : Rx → List Byte → Except Fault (Rx × Event × List Byte)
  | rx, [] => .ok (rx, .needMoreData, [])
  | rx, b :: bs =>
    match rxStep cfg rx b with
    | .error f => .error f
    | .ok (rx', .needMoreData) => decodeCall cfg rx' bs
    | .ok (rx', ev) => .ok (rx', ev, bs)

/-- R156: at most `n` successive calls of `decode` on the bytes of one poll, until they run out, and the results that
decide. -/
def decodeCalls (cfg : Cfg) : Nat → Rx → List Byte → Except Fault (Rx × List Event)
  | 0, rx, _ => .ok (rx, [])
  | _ + 1, rx, [] => .ok (rx, [])
  | n + 1, rx, b :: bs =>
    match decodeCall cfg rx (b :: bs) with
    | .error f => .error f
    | .ok (rx', ev, rest) =>
      match decodeCalls cfg n rx' rest with
      | .error f => .error f
      | .ok (rx'', evs) => .ok (rx'', decisions [ev] ++ evs)

/-- R35, R157: the polls of a run, each a group of bytes, decoded call by call. -/
def decodePolls (cfg : Cfg) : Rx → List (List Byte) → Except Fault (Rx × List Event)
  | rx, [] => .ok (rx, [])
  | rx, bs :: polls =>
    match decodeCalls cfg bs.length rx bs with
    | .error f => .error f
    | .ok (rx', evs) =>
      match decodePolls cfg rx' polls with
      | .error f => .error f
      | .ok (rx'', evs') => .ok (rx'', evs ++ evs')

end Sys2Proof.Machine
end

