-- ==== Sys2Proof/Machine/Engine.lean ====
section
/-! DEFINITION. The engine's reactions (42_engine_dispatch.md R180 to R184), the Dispatcher under its contract (R186 to
R188), the local send request (41_tx_encode.md R171) and the reset step (70_reset_and_hazards.md R260). -/

namespace Sys2Proof.Machine

open Sys2Proof

/-! ### The Dispatcher -/

/-- The Message an answer of the application becomes (R188): DATA on success, ERROR with the reason code on failure. -/
def AppAnswer.message : AppAnswer → Message
  | .data p => ⟨.data, p⟩
  | .failure p => ⟨.error, p⟩

/-- R181, R186: send the Dispatcher's one response; a response that breaks the bound of R162 is refused (U19). -/
def respond (m : Message) (s : State) : StepOutcome :=
  if m.payload.length ≤ 255 then .next (s.sendMessage m) else .refused .dispatcherContract

/-- The payload of the `n`-th free answer: at most 255 bytes, each unconstrained (log entry 6). -/
def freePayload (n : Nat) (args : List Byte) : List Byte :=
  (List.range (Config.appLength n args).toNat).map (Config.appByte n args)

/-- The `n`-th free answer of the application (log entry 6): success or failure, unconstrained. -/
def freeAnswer (n : Nat) (args : List Byte) : AppAnswer :=
  match Config.appFails n args with
  | true => .failure (freePayload n args)
  | false => .data (freePayload n args)

/-- R187: GET_IDENTITY is answered with IDENTITY carrying the configured string; the arguments are ignored. -/
def dispatchGetIdentity (s : State) : StepOutcome := respond ⟨.identity, s.cfg.identityString⟩ s

/-- R188: GET_DATA is answered with the application's data or its failure: the next listed answer, else a free one. -/
def dispatchGetData (args : List Byte) (s : State) : StepOutcome :=
  match s.app with
  | a :: rest => respond a.message { s with app := rest }
  | [] => .next (State.sendMessage { s with freeIdx := s.freeIdx + 1 } (freeAnswer s.freeIdx args).message)

/-- R186: the Dispatcher, with the transmission of its one response. -/
def dispatch (c : Command) (s : State) : StepOutcome :=
  match c.kind with
  | .getIdentity => dispatchGetIdentity s
  | .getData => dispatchGetData c.args s

/-! ### Reactions -/

/-- R181: a Command at a Device: the dispatch trigger, then the response. -/
def reactCommand (c : Command) (s : State) : StepOutcome := dispatch c (s.deliver (.command c))

/-- R184: a Message at a Host: delivered upward, nothing sent. -/
def reactMessage (m : Message) (s : State) : StepOutcome := .next (s.deliver (.message m))

/-- R181, R184: the reaction to a `Frame` event. The kind is in `RX_KINDS` (R150), so the code table of the role has it;
a kind it lacks would be `Malformed(UnknownKind)` (R198). -/
def reactFrame (k : Byte) (p : List Byte) (s : State) : StepOutcome :=
  match s.cfg.role with
  | .device =>
    match s.cfg.cmdOf k with
    | some c => reactCommand ⟨c, p⟩ s
    | none => .next (s.takeMalformed .unknownKind)
  | .host =>
    match s.cfg.msgOf k with
    | some m => reactMessage ⟨m, p⟩ s
    | none => .next (s.takeMalformed .unknownKind)

/-- R180 to R184: the reaction to the event of a receive step. -/
def react (ev : Event) (s : State) : StepOutcome :=
  match ev with
  | .needMoreData => .next s
  | .malformed r => .next (s.takeMalformed r)
  | .frame k p => reactFrame k p s

/-- R180: the engine's step for one received byte: `rx_step`, commit, react. -/
def engineRx (b : Byte) (s : State) : StepOutcome :=
  match rxStep s.cfg s.rx b with
  | .error f => .fault f
  | .ok (rx', ev) => react ev { s with rx := rx' }

/-- R190, R191: an intact frame of a Command kind at its END byte: dispatched at a Device, `Malformed(UnknownKind)` at a
Host (R150, U21). -/
def receiveCommand (c : Command) (s : State) : StepOutcome :=
  match s.cfg.role with
  | .device => reactCommand c s.resync
  | .host => .next (s.resync.takeMalformed .unknownKind)

/-- R192 to R197: an intact frame of a Message kind at its END byte: delivered at a Host, `Malformed(UnknownKind)` at a
Device (R150, U21). -/
def receiveMessage (m : Message) (s : State) : StepOutcome :=
  match s.cfg.role with
  | .device => .next (s.resync.takeMalformed .unknownKind)
  | .host => reactMessage m s.resync

/-! ### The steps that are not received bytes -/

/-- R171: the local send request: `send(k, p)` and nothing else; over 255 bytes it is refused (R162, U6). The kind byte is
not checked (R166, U7; DESIGN CHOICE, log entry 8). -/
def txRequest (k : Byte) (p : List Byte) (s : State) : StepOutcome :=
  if p.length ≤ 255 then .next (s.send k p) else .refused .payloadTooLong

/-- R260: the reset step. `Cfg` is unchanged; what the environment still has to do, the position in `RXIN` and the
application's answers are the environment's and are unchanged (log entry 4). -/
def resetStep (s : State) : State :=
  { s with rx := Rx.reset, txs := .idle, txq := [], evq := [], upq := [] }

end Sys2Proof.Machine
end

