-- ==== Sys2Proof/Machine/Command.lean ====
section
/-! DEFINITION. The meanings of the two Command kinds (42_engine_dispatch.md R190, R191). -/

namespace Sys2Proof.Machine

open Sys2Proof

/-- GET_IDENTITY (R190): at a Device one IDENTITY frame is sent; at a Host `Malformed(UnknownKind)` and a NACK. -/
def execGetIdentity (args : List Byte) (s : State) : StepOutcome := receiveCommand ⟨.getIdentity, args⟩ s

/-- GET_DATA (R191): at a Device one DATA or ERROR frame is sent; at a Host `Malformed(UnknownKind)` and a NACK. -/
def execGetData (args : List Byte) (s : State) : StepOutcome := receiveCommand ⟨.getData, args⟩ s

end Sys2Proof.Machine
end

