-- ==== Sys2Proof/Machine/Message.lean ====
section
/-! DEFINITION. The meanings of the six Message kinds (42_engine_dispatch.md R192 to R197). -/

namespace Sys2Proof.Machine

open Sys2Proof

/-- ACK (R192). -/
def execAck (payload : List Byte) (s : State) : StepOutcome := receiveMessage ⟨.ack, payload⟩ s

/-- NACK (R193): at a Device a received NACK is itself `Malformed(UnknownKind)` and draws a NACK (R272). -/
def execNack (payload : List Byte) (s : State) : StepOutcome := receiveMessage ⟨.nack, payload⟩ s

/-- SUCCESS (R194). -/
def execSuccess (payload : List Byte) (s : State) : StepOutcome := receiveMessage ⟨.success, payload⟩ s

/-- ERROR (R195). -/
def execError (payload : List Byte) (s : State) : StepOutcome := receiveMessage ⟨.error, payload⟩ s

/-- IDENTITY (R196). -/
def execIdentity (payload : List Byte) (s : State) : StepOutcome := receiveMessage ⟨.identity, payload⟩ s

/-- DATA (R197). -/
def execData (payload : List Byte) (s : State) : StepOutcome := receiveMessage ⟨.data, payload⟩ s

end Sys2Proof.Machine
end

