-- ==== Sys2Proof/Machine/Sentinel.lean ====
section
/-! DEFINITION. The meanings of the two SENTINEL rows: the receive step of that byte (30_encoding.md R71, R76, R86). A step
runs them in the sentinel-sensitive positions only (R99, Fetch.lean). -/

namespace Sys2Proof.Machine

open Sys2Proof

/-- START_BYTE: R112, R114, R124, R128, R131, R151. Where LENGTH or CHECKSUM is due (R120, R140) no step runs it. -/
def execStartByte (s : State) : StepOutcome := engineRx s.cfg.startByte s

/-- END_BYTE: R111, R115, R124, R128, R135, R150. Where LENGTH or CHECKSUM is due (R120, R140) no step runs it. -/
def execEndByte (s : State) : StepOutcome := engineRx s.cfg.endByte s

end Sys2Proof.Machine
end

