-- ==== Sys2Proof/Machine/Dispatch.lean ====
section
/-! DEFINITION. The dispatch: one arm per constructor of `Instr`, each a direct call of its meaning. -/

namespace Sys2Proof.Machine

open Sys2Proof

def exec (i : Instr) (s : State) : Host.Outcome State Fault Refusal :=
  match i with
  | .getIdentity args => Sys2Proof.Machine.execGetIdentity args s
  | .getData args => Sys2Proof.Machine.execGetData args s
  | .ack payload => Sys2Proof.Machine.execAck payload s
  | .nack payload => Sys2Proof.Machine.execNack payload s
  | .success payload => Sys2Proof.Machine.execSuccess payload s
  | .error payload => Sys2Proof.Machine.execError payload s
  | .identity payload => Sys2Proof.Machine.execIdentity payload s
  | .data payload => Sys2Proof.Machine.execData payload s
  | .startByte => Sys2Proof.Machine.execStartByte s
  | .endByte => Sys2Proof.Machine.execEndByte s

end Sys2Proof.Machine
end

