-- ==== Sys2Proof/Machine/Fetch.lean ====
section
/-! DEFINITION. What the next step runs: the instruction the next received byte completes, or the environment's step; and
the placing of a table word where the next step fetches. -/

namespace Sys2Proof.Machine

open Sys2Proof

/-- R99: the receive positions in which a sentinel value is matched as a sentinel. Where LENGTH and CHECKSUM are due every
byte is data (R86, R120, R140); in every other position the rule that applies depends on the class of the byte. -/
def RxState.sentinelSensitive : RxState → Bool
  | .awaitingStart => true
  | .kind => true
  | .length => false
  | .payload => true
  | .payloadPend => true
  | .checksum => false
  | .endPos => true

/-- The instruction that receiving `b` runs. In a sentinel-sensitive position START and END are the SENTINEL rows (R99),
except that the END byte which completes a checksum-good frame of a known kind (R150) runs that frame, the KIND row. A byte
of no row, and any byte where LENGTH or CHECKSUM is due, runs none. -/
def instrAt (s : State) (b : Byte) : Option Instr :=
  match s.rx.rxs.sentinelSensitive with
  | false => none
  | true =>
    match s.cfg.classify b with
    | .start => some .startByte
    | .stop =>
      if s.rx.rxs = .endPos ∧ s.rx.csok = true then
        match s.rx.frameInstr s.cfg with
        | some i => some i
        | none => some .endByte
      else some .endByte
    | .ordinary => none

/-- The instruction the next step runs, if the next input is a byte that runs one. -/
def fetch (s : State) : Option Instr :=
  match s.inputs with
  | .rx b :: _ => instrAt s b
  | _ => none

/-- R35, R57: take the next input; a received byte is consumed once and counted. -/
def State.consume (s : State) : State :=
  match s.inputs with
  | [] => s
  | .rx _ :: rest => { s with inputs := rest, rxCount := s.rxCount + 1 }
  | .request _ _ :: rest => { s with inputs := rest }
  | .reset :: rest => { s with inputs := rest }

/-- The step of an input that runs no instruction: a byte that no row matches (R180), a send request (R171), a reset (R260), or no
input at all, where nothing changes (R236, R240; DESIGN CHOICE, safe, log entry 7). -/
def envStep (s : State) : StepOutcome :=
  match s.inputs with
  | [] => .next s
  | .rx b :: _ => engineRx b s.consume
  | .request k p :: _ => txRequest k p s.consume
  | .reset :: _ => .next (resetStep s.consume)

/-- The registers of a decoder that has received `START k 00 CHECKSUM` of an empty frame and awaits its END (R116, R120,
R140). -/
def Rx.atEmptyVerdict (cfg : Cfg) (k : Byte) (rx : Rx) : Rx :=
  { rx with
    rxs := .endPos, kindR := k, lenR := 0#8, cnt := 0#8, acc := cfg.csStep (cfg.csStep 0#8 k) 0#8, csok := true }

/-- Whether the sentinel `b`, received next, would run no SENTINEL row: it would be LENGTH or CHECKSUM data (R86), or it is
the END of a frame. -/
abbrev Rx.missesSentinelRow (cfg : Cfg) (b : Byte) (rx : Rx) : Prop :=
  rx.rxs.sentinelSensitive = false ∨ b = cfg.endByte ∧ rx.rxs = .endPos

/-- `s` with the instruction of a table word as the very next thing to run (log entry 12). A SENTINEL word is the next
received byte, the decoder being moved to `AwaitingStart` from a position where that byte would be data or end a frame; a
KIND word is an empty frame of that kind received up to its END byte, which is the next received byte. -/
def placeWord (s : State) (w : Nat) : State :=
  let b := BitVec.ofNat 8 w
  if s.cfg.isSentinel b then
    { s with
      inputs := .rx b :: s.inputs
      rx := if s.rx.missesSentinelRow s.cfg b then s.rx.resync else s.rx }
  else
    { s with
      inputs := .rx s.cfg.endByte :: s.inputs
      rx := s.rx.atEmptyVerdict s.cfg b }

end Sys2Proof.Machine
end

