-- ==== Sys2Proof/Machine/Step.lean ====
section
/-! DEFINITION. The step of the machine (00_scope.md R6): one received byte, one send request or one reset. -/

namespace Sys2Proof.Machine

open Sys2Proof

/-- One step. A configuration that breaks R7 and R8 is refused (U18). -/
def step (s : State) : Host.Outcome State Fault Refusal :=
  if s.cfg.Valid then
    match fetch s with
    | some i => exec i s.consume
    | none => envStep s
  else .refused .invalidConfig

/-- `s` with a table word where `step` fetches its next instruction; the word's bits above `nbits` are 0. -/
def State.withFetchWord (s : State) (_nbits w : Nat) : State := placeWord s w

end Sys2Proof.Machine
end

