-- ==== Sys2Proof/Safety.lean ====
section
/-! DEFINITION. The terms claims are made in: the invariants between the registers (10_state.md R32), what a register
combination leaves live (R33), and a safe step. -/

namespace Sys2Proof.Machine

open Sys2Proof

/-- `ACC = cs(KIND_R, LEN_R, BUF[0 .. CNT-1])`, the entries read being there (R32). -/
abbrev Rx.AccCovers (cfg : Cfg) (rx : Rx) : Prop :=
  (rx.buf.readFirst rx.cnt.toNat).map (cfg.cs rx.kindR rx.lenR) = some rx.acc

/-- The table of R32, by `RXS`. -/
abbrev Rx.Consistent (cfg : Cfg) (rx : Rx) : Prop :=
  match rx.rxs with
  | .awaitingStart => True
  | .kind => rx.cnt = 0#8 ∧ rx.acc = 0#8 ∧ rx.csok = false
  | .length => rx.cnt = 0#8 ∧ rx.acc = cfg.csStep 0#8 rx.kindR ∧ rx.csok = false
  | .payload => rx.cnt < rx.lenR ∧ rx.AccCovers cfg ∧ rx.csok = false
  | .payloadPend => rx.cnt < rx.lenR ∧ rx.AccCovers cfg ∧ rx.csok = false ∧ cfg.isSentinel rx.pendR = true
  | .checksum => rx.cnt = rx.lenR ∧ rx.AccCovers cfg ∧ rx.csok = false
  | .endPos => rx.cnt = rx.lenR ∧ rx.AccCovers cfg

/-- The receive registers at a step boundary: R32, and `BUF` in canonical form. -/
abbrev Rx.Inv (cfg : Cfg) (rx : Rx) : Prop := rx.buf.wf ∧ rx.Consistent cfg

/-- The machine at a step boundary: a configuration that the rules are stated for (R263(a)), R32 with `TXS = Idle`, and
the canonical form of `BUF`. -/
abbrev State.Inv (s : State) : Prop := s.cfg.Valid ∧ s.rx.Inv s.cfg ∧ s.txs = .idle

/-- R33: two register sets that agree on every register that is live in their receive state (a register named in that
state's row of R32's table, with the bytes of `BUF` stored so far). What a dead register holds is left free. -/
def Rx.LiveEq (x y : Rx) : Prop :=
  x.rxs = y.rxs ∧
    match x.rxs with
    | .awaitingStart => True
    | .kind => x.cnt = y.cnt ∧ x.acc = y.acc ∧ x.csok = y.csok
    | .length => x.kindR = y.kindR ∧ x.cnt = y.cnt ∧ x.acc = y.acc ∧ x.csok = y.csok
    | .payload =>
      x.kindR = y.kindR ∧ x.lenR = y.lenR ∧ x.cnt = y.cnt ∧ x.acc = y.acc ∧ x.csok = y.csok ∧
        x.buf.readFirst x.cnt.toNat = y.buf.readFirst y.cnt.toNat
    | .payloadPend =>
      x.kindR = y.kindR ∧ x.lenR = y.lenR ∧ x.cnt = y.cnt ∧ x.acc = y.acc ∧ x.csok = y.csok ∧ x.pendR = y.pendR ∧
        x.buf.readFirst x.cnt.toNat = y.buf.readFirst y.cnt.toNat
    | .checksum =>
      x.kindR = y.kindR ∧ x.lenR = y.lenR ∧ x.cnt = y.cnt ∧ x.acc = y.acc ∧ x.csok = y.csok ∧
        x.buf.readFirst x.cnt.toNat = y.buf.readFirst y.cnt.toNat
    | .endPos =>
      x.kindR = y.kindR ∧ x.lenR = y.lenR ∧ x.cnt = y.cnt ∧ x.csok = y.csok ∧ x.acc = y.acc ∧
        x.buf.readFirst x.cnt.toNat = y.buf.readFirst y.cnt.toNat

/-- A step that ends in a next state. -/
def Completes (o : StepOutcome) : Prop := ∃ t, o = .next t

/-- A step that does not stop with a fault (R225: "no step of the block faults"). -/
def NeverFaults (o : StepOutcome) : Prop := ∀ f, o ≠ .fault f

/-! ### The receive rules, one constructor a rule -/

/-- The rules R111 to R153 of 40_rx_decode.md as a relation: `RxRule cfg rx b rx' ev` when a rule takes the registers `rx`
and the received byte `b` to `rx'` and `ev`. Written from the rules' own pseudocode and not from `rxStep`, so that R110 can
be stated of `rxStep`. The side condition of a store is R54's range. -/
inductive RxRule (cfg : Cfg) (rx : Rx) (b : Byte) : Rx → Event → Prop
  | r111_discard (hs : rx.rxs = .awaitingStart) (hb : b ≠ cfg.startByte) : RxRule cfg rx b rx .needMoreData
  | r112_begin (hs : rx.rxs = .awaitingStart) (hb : b = cfg.startByte) :
      RxRule cfg rx b { rx with cnt := 0#8, acc := 0#8, csok := false, rxs := .kind } .needMoreData
  | r114_startForKind (hs : rx.rxs = .kind) (hb : b = cfg.startByte) :
      RxRule cfg rx b { rx with cnt := 0#8, acc := 0#8, csok := false, rxs := .kind } (.malformed .unexpectedStart)
  | r115_endForKind (hs : rx.rxs = .kind) (hb : b = cfg.endByte) :
      RxRule cfg rx b { rx with rxs := .awaitingStart } (.malformed .prematureEnd)
  | r116_latchKind (hs : rx.rxs = .kind) (hb : cfg.isSentinel b = false) :
      RxRule cfg rx b { rx with kindR := b, acc := cfg.csStep 0#8 b, rxs := .length } .needMoreData
  | r120_latchEmptyLength (hs : rx.rxs = .length) (hb : b = 0#8) :
      RxRule cfg rx b { rx with lenR := b, acc := cfg.csStep rx.acc b, cnt := 0#8, rxs := .checksum } .needMoreData
  | r120_latchLength (hs : rx.rxs = .length) (hb : b ≠ 0#8) :
      RxRule cfg rx b { rx with lenR := b, acc := cfg.csStep rx.acc b, cnt := 0#8, rxs := .payload } .needMoreData
  | r124_hold (hs : rx.rxs = .payload) (hb : cfg.isSentinel b = true) :
      RxRule cfg rx b { rx with pendR := b, rxs := .payloadPend } .needMoreData
  | r126_store (hs : rx.rxs = .payload) (hb : cfg.isSentinel b = false) (hc : rx.cnt.toNat < bufSize) :
      RxRule cfg rx b
        { rx with
          buf := rx.buf.put rx.cnt.toNat b, acc := cfg.csStep rx.acc b, cnt := rx.cnt + 1#8
          rxs := if rx.cnt + 1#8 = rx.lenR then .checksum else .payload } .needMoreData
  | r128_doubled (hs : rx.rxs = .payloadPend) (hp : cfg.isSentinel rx.pendR = true) (hb : b = rx.pendR)
      (hc : rx.cnt.toNat < bufSize) :
      RxRule cfg rx b
        { rx with
          buf := rx.buf.put rx.cnt.toNat b, acc := cfg.csStep rx.acc b, cnt := rx.cnt + 1#8
          rxs := if rx.cnt + 1#8 = rx.lenR then .checksum else .payload } .needMoreData
  | r130_endThenOrdinary (hs : rx.rxs = .payloadPend) (hp : rx.pendR = cfg.endByte) (hb : cfg.isSentinel b = false) :
      RxRule cfg rx b { rx with rxs := .awaitingStart } (.malformed .prematureEnd)
  | r131_endThenStart (hs : rx.rxs = .payloadPend) (hp : rx.pendR = cfg.endByte) (hb : b = cfg.startByte) :
      RxRule cfg rx b { rx with cnt := 0#8, acc := 0#8, csok := false, rxs := .kind } (.malformed .prematureEnd)
  | r133_startThenOrdinary (hs : rx.rxs = .payloadPend) (hp : rx.pendR = cfg.startByte) (hb : cfg.isSentinel b = false) :
      RxRule cfg rx b
        { rx with kindR := b, acc := cfg.csStep 0#8 b, cnt := 0#8, csok := false, rxs := .length }
        (.malformed .unexpectedStart)
  | r135_startThenEnd (hs : rx.rxs = .payloadPend) (hp : rx.pendR = cfg.startByte) (hb : b = cfg.endByte) :
      RxRule cfg rx b { rx with rxs := .awaitingStart } (.malformed .unexpectedStart)
  | r140_compare (hs : rx.rxs = .checksum) :
      RxRule cfg rx b { rx with csok := b == rx.acc, rxs := .endPos } .needMoreData
  | r150_badChecksum (hs : rx.rxs = .endPos) (hb : b = cfg.endByte) (hok : rx.csok = false) :
      RxRule cfg rx b { rx with rxs := .awaitingStart } (.malformed .badChecksum)
  | r150_unknownKind (hs : rx.rxs = .endPos) (hb : b = cfg.endByte) (hok : rx.csok = true)
      (hk : rx.kindR ∉ cfg.rxKinds) :
      RxRule cfg rx b { rx with rxs := .awaitingStart } (.malformed .unknownKind)
  | r150_frame (p : List Byte) (hs : rx.rxs = .endPos) (hb : b = cfg.endByte) (hok : rx.csok = true)
      (hk : rx.kindR ∈ cfg.rxKinds) (hp : rx.buf.readFirst rx.lenR.toNat = some p) :
      RxRule cfg rx b { rx with rxs := .awaitingStart } (.frame rx.kindR p)
  | r151_startForEnd (hs : rx.rxs = .endPos) (hb : b = cfg.startByte) :
      RxRule cfg rx b { rx with cnt := 0#8, acc := 0#8, csok := false, rxs := .kind } (.malformed .missingEnd)
  | r153_otherForEnd (hs : rx.rxs = .endPos) (hb : cfg.isSentinel b = false) :
      RxRule cfg rx b { rx with rxs := .awaitingStart } (.malformed .missingEnd)

/-! ### The next states that statements name -/

/-- The state after a `Malformed(r)` whose raising rule left the registers `rx` (R182, R226): one log entry, one NACK with
an empty payload on the wire (its CHECKSUM is its KIND, R93), nothing else. `n` is the entry's tag (log entry 4). -/
def State.nacked (s : State) (rx : Rx) (r : Reason) (n : Nat) : State :=
  { s with
    rx := rx
    txs := .idle
    evq := s.evq ++ [⟨r, n⟩]
    txq := s.txq ++ [s.cfg.startByte, s.cfg.nackCode, 0#8, s.cfg.nackCode, s.cfg.endByte] }

/-- The registers after the action `begin` of R112. -/
abbrev Rx.begun (rx : Rx) : Rx := { rx with cnt := 0#8, acc := 0#8, csok := false, rxs := .kind }

/-- The registers after the write `RXS <- AwaitingStart`, every other register as it was. -/
abbrev Rx.idled (rx : Rx) : Rx := { rx with rxs := .awaitingStart }

/-- The state after a frame has been handed upward (R181, R184), `RXS` being `AwaitingStart` again. -/
def State.handedUp (s : State) (d : Delivery) : State := { s with rx := s.rx.idled, upq := s.upq ++ [d] }

/-- The state after one frame has been sent (R163). -/
def State.sent (s : State) (frame : List Byte) : State := { s with txs := .idle, txq := s.txq ++ frame }

/-- The state after the byte at the head of the inputs has been taken. -/
def State.took (s : State) (rest : List Input) : State := { s with inputs := rest, rxCount := s.rxCount + 1 }

/-- R155: the complete list of causes of each `Malformed`. -/
def MalformedCause (cfg : Cfg) (rx : Rx) (b : Byte) : Reason → Prop
  | .unexpectedStart =>
    rx.rxs = .kind ∧ b = cfg.startByte ∨ rx.rxs = .payloadPend ∧ rx.pendR = cfg.startByte ∧ b ≠ cfg.startByte
  | .prematureEnd =>
    rx.rxs = .kind ∧ b = cfg.endByte ∨ rx.rxs = .payloadPend ∧ rx.pendR = cfg.endByte ∧ b ≠ cfg.endByte
  | .missingEnd => rx.rxs = .endPos ∧ b ≠ cfg.endByte
  | .badChecksum => rx.rxs = .endPos ∧ b = cfg.endByte ∧ rx.csok = false
  | .unknownKind => rx.rxs = .endPos ∧ b = cfg.endByte ∧ rx.csok = true ∧ rx.kindR ∉ cfg.rxKinds

/-- R186: every answer the application still has to give keeps the payload bound. -/
abbrev State.AppFits (s : State) : Prop := ∀ a ∈ s.app, PayloadFits (AppAnswer.message a).payload

end Sys2Proof.Machine
end

