-- ==== Sys2Proof/Certificates/Slice0/Obligations.lean ====
section
/-! DEFINITION. The statements for the provers, one definition each, in the order of OBLIGATIONS.json. -/

open Sys2Proof Sys2Proof.Machine

/-! ### Reset -/

/-- R43: what is specified of the state after reset. The registers R43 leaves unspecified are not named. -/
def Obligations.ResetStateAsSpecified : Prop :=
  State.reset.rx.rxs = .awaitingStart ∧ State.reset.txs = .idle ∧
    State.reset.txq = [] ∧ State.reset.evq = [] ∧ State.reset.upq = []

/-- The state after reset meets the invariant (10_state.md R32); its configuration and the values of its unspecified
registers are the model's choice (log entries 1, 5). -/
def Obligations.ResetStateMeetsInvariant : Prop := State.reset.Inv

/-- R260: the reset step, from any state of a valid configuration, whatever the receive position; and the machine's
initial state is the state after a reset step. -/
def Obligations.ResetStep : Prop :=
  (∀ (s : State) (rest : List Input), s.cfg.Valid → s.inputs = .reset :: rest →
    ∃ t, step s = .next t ∧ t.rx.rxs = .awaitingStart ∧ t.txs = .idle ∧ t.txq = [] ∧ t.evq = [] ∧ t.upq = [] ∧
      t.cfg = s.cfg ∧ t.inputs = rest) ∧
  ∃ s : State, s.inputs = [.reset] ∧ step s = .next State.reset

/-! ### Fetch, decode, encode -/

/-- A step whose next received byte runs an instruction is `exec` of that instruction on the state with the byte taken; and
which instruction that is (30_encoding.md R99, R86; log entry 13): in a sentinel-sensitive position START, END, or the frame
that an END byte completes; none for an ordinary byte, and none for any byte where LENGTH or CHECKSUM is due. -/
def Obligations.StepRunsFetchedInstruction : Prop :=
  (∀ (s : State) (b : Byte) (rest : List Input) (i : Instr), s.cfg.Valid → s.inputs = .rx b :: rest →
    fetch s = some i → step s = exec i (s.took rest)) ∧
  (∀ (s : State) (b : Byte) (rest : List Input), s.cfg.Valid → s.inputs = .rx b :: rest →
    (b = s.cfg.startByte → s.rx.rxs ≠ .length → s.rx.rxs ≠ .checksum → fetch s = some .startByte) ∧
    (b = s.cfg.endByte → s.rx.rxs ≠ .length → s.rx.rxs ≠ .checksum → ¬ (s.rx.rxs = .endPos ∧ s.rx.csok = true) →
      fetch s = some .endByte) ∧
    (b = s.cfg.endByte → s.rx.rxs = .endPos → s.rx.csok = true → ∀ p i, s.rx.framePayload = some p →
      typeFrame s.cfg s.rx.kindR p = some i → fetch s = some i) ∧
    (s.rx.rxs = .length ∨ s.rx.rxs = .checksum → fetch s = none) ∧
    (s.cfg.isSentinel b = false → fetch s = none))

/-- The words of spec/opcode_table.json and whole frames of 95_test_vectors.md 2.3, written out, decode to what they
stand for. -/
def Obligations.WrittenOutWordsDecode : Prop :=
  decodeTableWord 8 0x80 = some (.getIdentity []) ∧ decodeTableWord 8 0x05 = some (.data []) ∧
    decodeTableWord 8 0xA5 = some .startByte ∧ decodeTableWord 8 0x7F = none ∧
    decode Cfg.reference [0xA5, 0x05, 0x04, 0x10, 0xA5, 0xA5, 0x5A, 0x5A, 0x20, 0x38, 0x5A]
      = .ok (.data [0x10, 0xA5, 0x5A, 0x20]) ∧
    decode Cfg.reference [0xA5, 0x81, 0x01, 0x01, 0x83, 0x5A] = .ok (.getData [0x01])

/-- A table word that decodes is what the very next step runs, from every state of the reference configuration (log entry
12). -/
def Obligations.TableWordIsFetchedAndRun : Prop :=
  ∀ (s : State) (w : Nat) (i : Instr), s.cfg = Cfg.reference → decodeTableWord 8 w = some i →
    fetch (s.withFetchWord 8 w) = some i ∧ step (s.withFetchWord 8 w) = exec i (s.withFetchWord 8 w).consume

/-- 30_encoding.md R97, 41_tx_encode.md R160: decoding the encoding of a well-formed instruction gives it back, for every
instruction, every payload and every valid configuration. -/
def Obligations.DecodeOfEncode : Prop :=
  ∀ (cfg : Cfg) (i : Instr), cfg.Valid → i.WellFormed → decode cfg (encode cfg i) = .ok i

/-- 30_encoding.md R97 ("bijective encode/decode"): the decoder accepts nothing but encodings of well-formed
instructions. -/
def Obligations.EncodeOfDecode : Prop :=
  ∀ (cfg : Cfg) (bs : List Byte) (i : Instr), cfg.Valid → decode cfg bs = .ok i → i.WellFormed ∧ encode cfg i = bs

/-- R77: the number of wire bytes of a frame, with its two extremes. -/
def Obligations.FrameLength : Prop :=
  ∀ (cfg : Cfg) (k : Byte) (p : List Byte),
    (encodeFrame cfg k p).length = 5 + p.length + (p.filter fun b => b = cfg.startByte ∨ b = cfg.endByte).length ∧
    (PayloadFits p → 5 ≤ (encodeFrame cfg k p).length ∧ (encodeFrame cfg k p).length ≤ 515) ∧
    (encodeFrame cfg k []).length = 5 ∧
    ((∀ b ∈ p, b = cfg.startByte ∨ b = cfg.endByte) → p.length = 255 → (encodeFrame cfg k p).length = 515)

/-- 41_tx_encode.md R161(c): two different pairs of kind byte and payload give two different byte sequences. -/
def Obligations.EncodeInjective : Prop :=
  ∀ (cfg : Cfg) (k k' : Byte) (p p' : List Byte), PayloadFits p → PayloadFits p' →
    encodeFrame cfg k p = encodeFrame cfg k' p' → k = k' ∧ p = p'

/-- 30_encoding.md R94(a), (b): the checksum does not depend on the order of the covered payload bytes, and changing
exactly one covered byte (payload, KIND or LENGTH) changes it. -/
def Obligations.ChecksumOrderAndSensitivity : Prop :=
  ∀ (cfg : Cfg) (k l : Byte) (p : List Byte),
    (∀ q, p.Perm q → cfg.cs k l p = cfg.cs k l q) ∧
    (∀ (xs ys : List Byte) (a b : Byte), p = xs ++ [a] ++ ys → a ≠ b → cfg.cs k l p ≠ cfg.cs k l (xs ++ [b] ++ ys)) ∧
    (∀ k', k ≠ k' → cfg.cs k l p ≠ cfg.cs k' l p) ∧ (∀ l', l ≠ l' → cfg.cs k l p ≠ cfg.cs k l' p)

/-! ### The receive step -/

/-- R110: in every register set of R32, one of the rules R111 to R153 applies, only one, and it is what the step does. -/
def Obligations.ExactlyOneReceiveRule : Prop :=
  ∀ (cfg : Cfg) (rx : Rx) (b : Byte), cfg.Valid → rx.Inv cfg →
    ∃ rx' ev, rxStep cfg rx b = .ok (rx', ev) ∧ RxRule cfg rx b rx' ev ∧
      ∀ rx'' ev'', RxRule cfg rx b rx'' ev'' → rx'' = rx' ∧ ev'' = ev

/-- 42_engine_dispatch.md R180: the step of a received byte, whatever instruction it runs: compute `rx_step`, commit, react. -/
def Obligations.ReceivedByteStep : Prop :=
  ∀ (s : State) (b : Byte) (rest : List Input), s.cfg.Valid → s.inputs = .rx b :: rest →
    step s = match rxStep s.cfg s.rx b with
      | .error f => .fault f
      | .ok (rx', ev) => react ev { s with rx := rx', inputs := rest, rxCount := s.rxCount + 1 }

/-- R111: a byte that is not START is discarded in `AwaitingStart`, END and ordinary alike. -/
def Obligations.GarbageIsDiscarded : Prop :=
  ∀ s : State, s.cfg.Valid → s.rx.rxs = .awaitingStart →
    exec .endByte s = .next s ∧
    ∀ b rest, s.inputs = .rx b :: rest → b ≠ s.cfg.startByte → step s = .next (s.took rest)

/-- R112: START begins an accumulation; the START byte is neither stored nor added to `ACC`. -/
def Obligations.StartBeginsAccumulation : Prop :=
  ∀ s : State, s.rx.rxs = .awaitingStart →
    exec .startByte s = .next { s with rx := { s.rx with cnt := 0#8, acc := 0#8, csok := false, rxs := .kind } }

/-- R114, R115: START and END where KIND is due. -/
def Obligations.SentinelWhereKindIsDue : Prop :=
  ∀ s : State, s.cfg.Valid → s.rx.rxs = .kind →
    (∃ n, exec .startByte s = .next (s.nacked s.rx.begun .unexpectedStart n)) ∧
    (∃ n, exec .endByte s = .next (s.nacked s.rx.idled .prematureEnd n))

/-- R116: an ordinary byte where KIND is due is latched, whether or not it is a legal kind. -/
def Obligations.KindIsLatched : Prop :=
  ∀ (s : State) (b : Byte) (rest : List Input), s.cfg.Valid → s.rx.rxs = .kind → s.inputs = .rx b :: rest →
    s.cfg.isSentinel b = false →
    step s = .next { s.took rest with rx := { s.rx with kindR := b, acc := s.cfg.csStep 0#8 b, rxs := .length } }

/-- R120: every byte where LENGTH is due is a length, the sentinels among them; 0 skips the PAYLOAD. -/
def Obligations.LengthIsLatched : Prop :=
  ∀ (s : State) (b : Byte) (rest : List Input), s.cfg.Valid → s.rx.rxs = .length → s.inputs = .rx b :: rest →
    (b = 0#8 → step s = .next { s.took rest with
      rx := { s.rx with lenR := b, acc := s.cfg.csStep s.rx.acc b, cnt := 0#8, rxs := .checksum } }) ∧
    (b ≠ 0#8 → step s = .next { s.took rest with
      rx := { s.rx with lenR := b, acc := s.cfg.csStep s.rx.acc b, cnt := 0#8, rxs := .payload } })

/-- R124: a sentinel seen in the payload is held; nothing is stored. -/
def Obligations.SentinelInPayloadIsHeld : Prop :=
  ∀ s : State, s.cfg.Valid → s.rx.rxs = .payload →
    exec .startByte s = .next { s with rx := { s.rx with pendR := s.cfg.startByte, rxs := .payloadPend } } ∧
    exec .endByte s = .next { s with rx := { s.rx with pendR := s.cfg.endByte, rxs := .payloadPend } }

/-- R126: an ordinary payload byte is stored at `BUF[CNT]`; the last one owed leads to CHECKSUM. -/
def Obligations.OrdinaryPayloadByteIsStored : Prop :=
  ∀ (s : State) (b : Byte) (rest : List Input), s.cfg.Valid → s.rx.rxs = .payload → s.rx.cnt < s.rx.lenR →
    s.inputs = .rx b :: rest → s.cfg.isSentinel b = false →
    ∃ buf, step s = .next { s.took rest with
        rx := { s.rx with
          buf := buf, acc := s.cfg.csStep s.rx.acc b, cnt := s.rx.cnt + 1#8
          rxs := if s.rx.cnt + 1#8 = s.rx.lenR then .checksum else .payload } } ∧
      buf.get s.rx.cnt.toNat = some b ∧ ∀ i, i ≠ s.rx.cnt.toNat → buf.get i = s.rx.buf.get i

/-- R128: a doubled sentinel is one literal byte, stored and added to `ACC` once. -/
def Obligations.DoubledSentinelIsOneByte : Prop :=
  ∀ s : State, s.cfg.Valid → s.rx.rxs = .payloadPend → s.rx.cnt < s.rx.lenR →
    (s.rx.pendR = s.cfg.startByte → ∃ buf, exec .startByte s = .next { s with
        rx := { s.rx with
          buf := buf, acc := s.cfg.csStep s.rx.acc s.cfg.startByte, cnt := s.rx.cnt + 1#8
          rxs := if s.rx.cnt + 1#8 = s.rx.lenR then .checksum else .payload } } ∧
      buf.get s.rx.cnt.toNat = some s.cfg.startByte ∧ ∀ i, i ≠ s.rx.cnt.toNat → buf.get i = s.rx.buf.get i) ∧
    (s.rx.pendR = s.cfg.endByte → ∃ buf, exec .endByte s = .next { s with
        rx := { s.rx with
          buf := buf, acc := s.cfg.csStep s.rx.acc s.cfg.endByte, cnt := s.rx.cnt + 1#8
          rxs := if s.rx.cnt + 1#8 = s.rx.lenR then .checksum else .payload } } ∧
      buf.get s.rx.cnt.toNat = some s.cfg.endByte ∧ ∀ i, i ≠ s.rx.cnt.toNat → buf.get i = s.rx.buf.get i)

/-- R130, R131, R133, R135: a held sentinel followed by a different byte. -/
def Obligations.SingleSentinelInPayload : Prop :=
  ∀ s : State, s.cfg.Valid → s.rx.rxs = .payloadPend →
    (s.rx.pendR = s.cfg.endByte →
      (∀ b rest, s.inputs = .rx b :: rest → s.cfg.isSentinel b = false →
        ∃ n, step s = .next ((s.took rest).nacked s.rx.idled .prematureEnd n)) ∧
      (∃ n, exec .startByte s = .next (s.nacked s.rx.begun .prematureEnd n))) ∧
    (s.rx.pendR = s.cfg.startByte →
      (∀ b rest, s.inputs = .rx b :: rest → s.cfg.isSentinel b = false →
        ∃ n, step s = .next ((s.took rest).nacked
          { s.rx with kindR := b, acc := s.cfg.csStep 0#8 b, cnt := 0#8, csok := false, rxs := .length }
          .unexpectedStart n)) ∧
      (∃ n, exec .endByte s = .next (s.nacked s.rx.idled .unexpectedStart n)))

/-- R140: every byte where CHECKSUM is due is compared with `ACC`; the result is held. -/
def Obligations.ChecksumIsCompared : Prop :=
  ∀ (s : State) (b : Byte) (rest : List Input), s.cfg.Valid → s.rx.rxs = .checksum → s.inputs = .rx b :: rest →
    step s = .next { s.took rest with rx := { s.rx with csok := decide (b = s.rx.acc), rxs := .endPos } }

/-- R150: the verdict. END in place: the checksum, then the kind, then the frame, which is reacted to in the same step. -/
def Obligations.VerdictAtEnd : Prop :=
  ∀ s : State, s.cfg.Valid → s.rx.rxs = .endPos →
    (s.rx.csok = false → ∃ n, exec .endByte s = .next (s.nacked s.rx.idled .badChecksum n)) ∧
    (s.rx.csok = true → s.rx.kindR ∉ s.cfg.rxKinds →
      ∃ n, exec .endByte s = .next (s.nacked s.rx.idled .unknownKind n)) ∧
    (s.rx.csok = true → s.rx.kindR ∈ s.cfg.rxKinds → ∀ p, s.rx.buf.readFirst s.rx.lenR.toNat = some p →
      rxStep s.cfg s.rx s.cfg.endByte = .ok (s.rx.idled, .frame s.rx.kindR p) ∧
      exec .endByte s = react (.frame s.rx.kindR p) { s with rx := s.rx.idled })

/-- R151, R153: any byte but END where END is due, whatever `CSOK` and `KIND_R` are. -/
def Obligations.MissingEnd : Prop :=
  ∀ s : State, s.cfg.Valid → s.rx.rxs = .endPos →
    (∃ n, exec .startByte s = .next (s.nacked s.rx.begun .missingEnd n)) ∧
    (∀ b rest, s.inputs = .rx b :: rest → s.cfg.isSentinel b = false →
      ∃ n, step s = .next ((s.took rest).nacked s.rx.idled .missingEnd n))

/-- R155: the causes of `Malformed`, complete: a consistent register set raises a reason exactly when its row says so. -/
def Obligations.CausesOfMalformed : Prop :=
  ∀ (cfg : Cfg) (rx : Rx) (b : Byte) (r : Reason), cfg.Valid → rx.Inv cfg →
    ((∃ rx', rxStep cfg rx b = .ok (rx', .malformed r)) ↔ MalformedCause cfg rx b r)

/-! ### The engine's reactions and the meanings of the KIND rows -/

/-- R183: `NeedMoreData` changes nothing outside the receive registers. -/
def Obligations.NeedMoreDataDoesNothing : Prop :=
  ∀ (s : State) (b : Byte) (rest : List Input) (rx' : Rx), s.cfg.Valid → s.inputs = .rx b :: rest →
    rxStep s.cfg s.rx b = .ok (rx', .needMoreData) → step s = .next { s.took rest with rx := rx' }

/-- R182: `Malformed`, in either role: one log entry, one NACK with an empty payload, nothing handed upward, and the
receive state the raising rule left. -/
def Obligations.MalformedDrawsOneNack : Prop :=
  ∀ (s : State) (b : Byte) (rest : List Input) (rx' : Rx) (r : Reason), s.cfg.Valid → s.inputs = .rx b :: rest →
    rxStep s.cfg s.rx b = .ok (rx', .malformed r) → ∃ n, step s = .next ((s.took rest).nacked rx' r n)

/-- The tag of a log entry is the position in `RXIN`, counted from 1, of the byte whose step emitted it: the base of the
count is the model's choice (log entry 4). -/
def Obligations.LogTagIsInputPosition : Prop :=
  ∀ (s t : State) (b : Byte) (rest : List Input), s.inputs = .rx b :: rest → step s = .next t →
    t.evq = s.evq ∨ ∃ r, t.evq = s.evq ++ [⟨r, s.rxCount + 1⟩]

/-- R184: a `Frame` event at a Host is delivered upward as the Message of its kind and nothing is transmitted; and so the
meaning of the six Message rows. -/
def Obligations.MessageAtHostIsDelivered : Prop :=
  (∀ (s : State) (k : Byte) (p : List Byte), s.cfg.Valid → s.cfg.role = .host → k ∈ s.cfg.rxKinds →
    ∃ m, s.cfg.msgCode m = k ∧ react (.frame k p) s = .next { s with upq := s.upq ++ [.message ⟨m, p⟩] }) ∧
  ∀ (s : State) (p : List Byte), s.cfg.role = .host →
    exec (.ack p) s = .next (s.handedUp (.message ⟨.ack, p⟩)) ∧
    exec (.nack p) s = .next (s.handedUp (.message ⟨.nack, p⟩)) ∧
    exec (.success p) s = .next (s.handedUp (.message ⟨.success, p⟩)) ∧
    exec (.error p) s = .next (s.handedUp (.message ⟨.error, p⟩)) ∧
    exec (.identity p) s = .next (s.handedUp (.message ⟨.identity, p⟩)) ∧
    exec (.data p) s = .next (s.handedUp (.message ⟨.data, p⟩))

/-- 42_engine_dispatch.md R192 to R197, 30_encoding.md R85: a Message at a Device is `Malformed(UnknownKind)` and draws a
NACK; nothing is delivered. -/
def Obligations.MessageAtDeviceIsRejected : Prop :=
  ∀ (s : State) (p : List Byte), s.cfg.role = .device → ∀ i ∈
      [Instr.ack p, .nack p, .success p, .error p, .identity p, .data p],
    ∃ n, exec i s = .next (s.nacked s.rx.idled .unknownKind n)

/-- 42_engine_dispatch.md R190, R191: a Command at a Host is `Malformed(UnknownKind)` and draws a NACK. -/
def Obligations.CommandAtHostIsRejected : Prop :=
  ∀ (s : State) (args : List Byte), s.cfg.role = .host → ∀ i ∈ [Instr.getIdentity args, .getData args],
    ∃ n, exec i s = .next (s.nacked s.rx.idled .unknownKind n)

/-- R187: GET_IDENTITY at a Device: the Command is handed to the Dispatcher and one IDENTITY frame with the configured
string is sent; the arguments are ignored. -/
def Obligations.GetIdentityIsAnswered : Prop :=
  ∀ (s : State) (args : List Byte), s.cfg.Valid → s.cfg.role = .device →
    exec (.getIdentity args) s = .next ((s.handedUp (.command ⟨.getIdentity, args⟩)).sent
      (encodeFrame s.cfg s.cfg.identityCode s.cfg.identityString))

/-- R188: GET_DATA at a Device: DATA with the application's bytes on success, ERROR with its reason code on failure. -/
def Obligations.GetDataIsAnswered : Prop :=
  ∀ (s : State) (args : List Byte), s.cfg.role = .device →
    (∀ p rest, s.app = .data p :: rest → PayloadFits p →
      exec (.getData args) s = .next { (s.handedUp (.command ⟨.getData, args⟩)).sent
        (encodeFrame s.cfg s.cfg.dataCode p) with app := rest }) ∧
    (∀ p rest, s.app = .failure p :: rest → PayloadFits p →
      exec (.getData args) s = .next { (s.handedUp (.command ⟨.getData, args⟩)).sent
        (encodeFrame s.cfg s.cfg.errorCode p) with app := rest })

/-- GET_DATA at a Device where the state lists no answer of the application: the answer is a free value, the model's choice
(log entry 6), and the statement holds for every value of it: one DATA or ERROR frame within the payload bound, never
silence. -/
def Obligations.GetDataWithFreeAnswer : Prop :=
  ∀ (s : State) (args : List Byte), s.cfg.role = .device → s.app = [] →
    ∃ k p, (k = s.cfg.dataCode ∨ k = s.cfg.errorCode) ∧ PayloadFits p ∧
      exec (.getData args) s = .next { (s.handedUp (.command ⟨.getData, args⟩)).sent (encodeFrame s.cfg k p) with
        freeIdx := s.freeIdx + 1 }

/-- The two SENTINEL rows complete in every state that meets the invariant while the application keeps its bound. -/
def Obligations.SentinelBytesComplete : Prop :=
  ∀ s : State, s.Inv → s.AppFits → Completes (exec .startByte s) ∧ Completes (exec .endByte s)

/-- 42_engine_dispatch.md R199: at a Device, exactly one response frame for every `Frame` event, exactly one NACK frame for every `Malformed`
event, nothing for `NeedMoreData`. -/
def Obligations.OneFrameOutPerEvent : Prop :=
  ∀ (s t : State) (b : Byte) (rest : List Input) (rx' : Rx) (ev : Event), s.cfg.role = .device →
    s.inputs = .rx b :: rest → rxStep s.cfg s.rx b = .ok (rx', ev) → step s = .next t →
    (ev = .needMoreData → t.txq = s.txq) ∧
    (∀ r, ev = .malformed r → t.txq = s.txq ++ encode s.cfg (.nack [])) ∧
    (∀ k p, ev = .frame k p → ∃ m : Message, m.WellFormed ∧ m.kind ≠ .nack ∧ t.txq = s.txq ++ encode s.cfg m.toInstr)

/-- 42_engine_dispatch.md R189: nothing reaches the Dispatcher but a Command of `CommandKind` whose checksum is good and whose END is in place.
-/
def Obligations.OnlyGoodCommandsAreDispatched : Prop :=
  ∀ (s t : State), s.cfg.role = .device → (∀ rest, s.inputs ≠ .reset :: rest) → step s = .next t → t.upq ≠ s.upq →
    ∃ c : Command, t.upq = s.upq ++ [.command c] ∧ s.rx.rxs = .endPos ∧ s.rx.csok = true ∧
      s.rx.kindR = s.cfg.cmdCode c.kind ∧ s.rx.framePayload = some c.args ∧
      ∃ rest, s.inputs = .rx s.cfg.endByte :: rest

/-- 60_exceptions.md R233: the role decides nothing of the receive step but the verdict on an END byte, and nothing of the
encoder. -/
def Obligations.RoleDecidesOnlyTheVerdict : Prop :=
  ∀ (cfg : Cfg) (r : Role) (rx : Rx) (b : Byte) (k : Byte) (p : List Byte), cfg.Valid →
    encodeFrame { cfg with role := r } k p = encodeFrame cfg k p ∧
    (¬ (rx.rxs = .endPos ∧ b = cfg.endByte) → rxStep { cfg with role := r } rx b = rxStep cfg rx b) ∧
    (rx.rxs = .endPos → b = cfg.endByte → rx.csok = false → rxStep { cfg with role := r } rx b = rxStep cfg rx b)

/-! ### Send requests, idling, refusals -/

/-- 41_tx_encode.md R171: a local send request performs `send(k, p)` and nothing else. That a request of a kind byte outside
`KIND_CODES`, a sentinel included, is carried out too is the model's choice (R166, U7; log entry 8). -/
def Obligations.SendRequest : Prop :=
  ∀ (s : State) (k : Byte) (p : List Byte) (rest : List Input), s.cfg.Valid → s.inputs = .request k p :: rest →
    PayloadFits p → step s = .next (State.sent { s with inputs := rest } (encodeFrame s.cfg k p))

/-- R162: a send request with a longer payload is refused. -/
def Obligations.LongSendRequestIsRefused : Prop :=
  ∀ (s : State) (k : Byte) (p : List Byte) (rest : List Input), s.cfg.Valid → s.inputs = .request k p :: rest →
    255 < p.length → step s = .refused .payloadTooLong

/-- Without an input nothing changes (log entry 7; 60_exceptions.md R236, R240). -/
def Obligations.NoInputNoChange : Prop :=
  ∀ s : State, s.cfg.Valid → s.inputs = [] → step s = .next s

/-- 93_implementation_defined.md U18, U19: where else a step has no meaning: a configuration that breaks R7 and R8, and a
Dispatcher response over 255 bytes. -/
def Obligations.ContractBreachesAreRefused : Prop :=
  (∀ s : State, ¬ s.cfg.Valid → step s = .refused .invalidConfig) ∧
  (∀ (s : State) (args p : List Byte) (rest : List AppAnswer), s.cfg.role = .device →
    (s.app = .data p :: rest ∨ s.app = .failure p :: rest) → 255 < p.length →
    exec (.getData args) s = .refused .dispatcherContract)

/-! ### Whole-machine rules -/

/-- 10_state.md R32: every step keeps the invariants between the registers, `TXS = Idle` at every step boundary, the
canonical form of `BUF` and the validity of the configuration. -/
def Obligations.StepKeepsInvariant : Prop := ∀ s t : State, s.Inv → step s = .next t → t.Inv

/-- 60_exceptions.md R225: no step faults, and no received byte in any state is refused; the only refusals are of requests
from the local side that are outside their bound. That a request of a kind outside `KIND_CODES`, which R225 and U7 let a
model refuse, is never refused is the model's choice (log entry 8). -/
def Obligations.NothingIsFatal : Prop :=
  ∀ s : State, s.Inv → s.AppFits →
    NeverFaults (step s) ∧
    (∀ b rest, s.inputs = .rx b :: rest → Completes (step s)) ∧
    (∀ r, step s = .refused r → ∃ k p rest, s.inputs = .request k p :: rest ∧ ¬ PayloadFits p)

/-- 10_state.md R40, 20_memory.md R64: no step of any kind writes the configuration. -/
def Obligations.ConfigurationIsConstant : Prop := ∀ s t : State, step s = .next t → t.cfg = s.cfg

/-- 10_state.md R36, R37, R38: a step that is no reset only appends to the three output streams. -/
def Obligations.StreamsOnlyGrow : Prop :=
  ∀ s t : State, (∀ rest, s.inputs ≠ .reset :: rest) → step s = .next t →
    s.txq <+: t.txq ∧ s.evq <+: t.evq ∧ s.upq <+: t.upq

/-- R54: a step that is no reset changes `BUF` at index `CNT` only, while `CNT < LEN_R <= 255`, and with the received
byte; every other entry reads as before; and no step makes an access out of range. -/
def Obligations.BufferAccessesInRange : Prop :=
  (∀ (s t : State) (i : Nat), s.Inv → (∀ rest, s.inputs ≠ .reset :: rest) → step s = .next t →
    t.rx.buf.get i ≠ s.rx.buf.get i →
    i = s.rx.cnt.toNat ∧ s.rx.cnt < s.rx.lenR ∧ i ≤ 254 ∧
      ∃ b rest, s.inputs = .rx b :: rest ∧ t.rx.buf.get i = some b) ∧
  (∀ s : State, s.Inv → step s ≠ .fault .bufferRange)

/-- 10_state.md R33: a register that is dead in the current receive state influences no later output: two consistent register sets
that agree on the live registers give the same events on every byte sequence. -/
def Obligations.DeadRegistersDoNotMatter : Prop :=
  ∀ (cfg : Cfg) (x y x' : Rx) (bs : List Byte) (evs : List Event), cfg.Valid → x.Inv cfg → y.Inv cfg → x.LiveEq y →
    rxRun cfg x bs = .ok (x', evs) → ∃ y', rxRun cfg y bs = .ok (y', evs) ∧ x'.LiveEq y'

/-! ### Sequences of bytes -/

/-- R158: the round trip, through the per-byte decoder: from `AwaitingStart`, whatever the dead registers and `BUF` hold,
an encoded frame gives `NeedMoreData` at every byte but the last and the verdict at the last. -/
def Obligations.RoundTrip : Prop :=
  ∀ (cfg : Cfg) (rx : Rx) (k : Byte) (p : List Byte), cfg.Valid → rx.rxs = .awaitingStart →
    cfg.isSentinel k = false → PayloadFits p →
    ∃ rx', rxRun cfg rx (encodeFrame cfg k p) = .ok (rx',
        List.replicate ((encodeFrame cfg k p).length - 1) .needMoreData
          ++ [if k ∈ cfg.rxKinds then .frame k p else .malformed .unknownKind]) ∧
      rx'.rxs = .awaitingStart

/-- A whole Message frame presented to a Host in `AwaitingStart`, byte by byte, ends with the Message delivered and nothing
transmitted or logged. -/
def Obligations.HostReceivesMessage : Prop :=
  ∀ (s : State) (m : Message) (rest : List Input), s.Inv → s.cfg.role = .host → s.rx.rxs = .awaitingStart →
    m.WellFormed → s.inputs = (encode s.cfg m.toInstr).map .rx ++ rest →
    ∃ t, Sys2Proof.core.run (encode s.cfg m.toInstr).length s = .next t ∧ t.upq = s.upq ++ [.message m] ∧
      t.txq = s.txq ∧ t.evq = s.evq ∧ t.inputs = rest ∧ t.rx.rxs = .awaitingStart

/-- A whole GET_IDENTITY frame presented to a Device in `AwaitingStart`, byte by byte, ends with the Command dispatched and
the IDENTITY frame transmitted; a whole GET_DATA frame, with the DATA or ERROR frame of the application's answer. -/
def Obligations.DeviceAnswersCommand : Prop :=
  ∀ (s : State) (c : Command) (rest : List Input), s.Inv → s.cfg.role = .device → s.rx.rxs = .awaitingStart →
    c.WellFormed → s.AppFits → s.inputs = (encode s.cfg c.toInstr).map .rx ++ rest →
    ∃ (t : State) (m : Message), Sys2Proof.core.run (encode s.cfg c.toInstr).length s = .next t ∧
      t.upq = s.upq ++ [.command c] ∧ t.txq = s.txq ++ encode s.cfg m.toInstr ∧ m.WellFormed ∧ t.evq = s.evq ∧
      t.inputs = rest ∧ t.rx.rxs = .awaitingStart ∧
      (c.kind = .getIdentity → m = ⟨.identity, s.cfg.identityString⟩) ∧
      (c.kind = .getData → ∀ a as, s.app = a :: as →
        m = (match a with | .data p => ⟨.data, p⟩ | .failure p => ⟨.error, p⟩)) ∧
      (c.kind = .getData → m.kind = .data ∨ m.kind = .error)

/-- R156: how the bytes are grouped into polls and calls changes neither the registers left nor the events that
decide. -/
def Obligations.GroupingIndependence : Prop :=
  ∀ (cfg : Cfg) (rx : Rx) (polls : List (List Byte)), cfg.Valid → rx.Inv cfg →
    ∃ rx' evs, rxRun cfg rx polls.flatten = .ok (rx', evs) ∧ decodePolls cfg rx polls = .ok (rx', decisions evs)

/-- R172: frames sent by an engine of either role and delivered unaltered, all of kinds the receiver accepts, are emitted as
they were sent, in order, and nothing else is. -/
def Obligations.FramesArriveInOrder : Prop :=
  ∀ (cfg : Cfg) (sender : Role) (rx : Rx) (frames : List (Byte × List Byte)), cfg.Valid → rx.rxs = .awaitingStart →
    (∀ f ∈ frames, f.1 ∈ cfg.rxKinds ∧ PayloadFits f.2) →
    ∃ rx' evs, rxRun cfg rx (frames.flatMap fun f => encodeFrame { cfg with role := sender } f.1 f.2) = .ok (rx', evs) ∧
      decisions evs = frames.map (fun f => .frame f.1 f.2) ∧ rx'.rxs = .awaitingStart

/-- 40_rx_decode.md R159, first part: between two good frames any garbage without START is discarded without an event. -/
def Obligations.ResyncOverGarbage : Prop :=
  ∀ (cfg : Cfg) (rx : Rx) (k k' : Byte) (p p' g : List Byte), cfg.Valid → rx.rxs = .awaitingStart →
    k ∈ cfg.rxKinds → k' ∈ cfg.rxKinds → PayloadFits p → PayloadFits p' → cfg.startByte ∉ g →
    ∃ rx' evs, rxRun cfg rx (encodeFrame cfg k p ++ g ++ encodeFrame cfg k' p') = .ok (rx', evs) ∧
      decisions evs = [.frame k p, .frame k' p']

/-- 40_rx_decode.md R159, second part: the synchronising word `END, o, END, o'` brings the decoder to `AwaitingStart` from
every consistent register set, and a good frame that follows is emitted. -/
def Obligations.SynchronisingWord : Prop :=
  ∀ (cfg : Cfg) (rx : Rx) (o o' k : Byte) (p : List Byte), cfg.Valid → rx.Inv cfg →
    cfg.isSentinel o = false → cfg.isSentinel o' = false → k ∈ cfg.rxKinds → PayloadFits p →
    ∃ rx' evs rx'' evs', rxRun cfg rx [cfg.endByte, o, cfg.endByte, o'] = .ok (rx', evs) ∧
      rx'.rxs = .awaitingStart ∧ rxRun cfg rx' (encodeFrame cfg k p) = .ok (rx'', evs') ∧
      decisions evs' = [.frame k p]

/-- 40_rx_decode.md R140, R150, 30_encoding.md R97: a frame with a wrong CHECKSUM byte and otherwise intact is never
emitted: its one event that decides is `Malformed(BadChecksum)`, even when its kind is unknown. -/
def Obligations.WrongChecksumIsNeverAFrame : Prop :=
  ∀ (cfg : Cfg) (rx : Rx) (k c : Byte) (p : List Byte), cfg.Valid → rx.rxs = .awaitingStart →
    cfg.isSentinel k = false → PayloadFits p → c ≠ cfg.cs k (BitVec.ofNat 8 p.length) p →
    ∃ rx' evs, rxRun cfg rx ([cfg.startByte, k, BitVec.ofNat 8 p.length] ++ cfg.escape p ++ [c, cfg.endByte])
        = .ok (rx', evs) ∧
      decisions evs = [.malformed .badChecksum] ∧ rx'.rxs = .awaitingStart

/-- 70_reset_and_hazards.md R269: one payload byte altered, neither the original nor the altered byte being a sentinel, is
always detected. -/
def Obligations.AlteredPayloadByteIsDetected : Prop :=
  ∀ (cfg : Cfg) (rx : Rx) (k a b : Byte) (xs ys : List Byte), cfg.Valid → rx.rxs = .awaitingStart →
    cfg.isSentinel k = false → PayloadFits (xs ++ [a] ++ ys) → a ≠ b → cfg.isSentinel a = false →
    cfg.isSentinel b = false →
    ∃ pre post rx' evs, encodeFrame cfg k (xs ++ [a] ++ ys) = pre ++ [a] ++ post ∧
      rxRun cfg rx (pre ++ [b] ++ post) = .ok (rx', evs) ∧ decisions evs = [.malformed .badChecksum] ∧
      pre = [cfg.startByte, k, BitVec.ofNat 8 (xs ++ [a] ++ ys).length] ++ cfg.escape xs
end

