-- ==== Sys2Proof/Laws/Codec.lean ====
section
/-! SUPPORT. The laws of byte classes, code tables, checksum and escaping (00_scope.md R8, R13; 30_encoding.md R88 to R94). -/

namespace Sys2Proof

/-! ### Classes -/

theorem Cfg.start_ne_end {cfg : Cfg} (h : cfg.Valid) : cfg.startByte ≠ cfg.endByte := by
  have := h.1
  simp [Cfg.reservedBytes] at this
  tauto

@[simp] theorem Cfg.classify_start (cfg : Cfg) : cfg.classify cfg.startByte = .start := by simp [Cfg.classify]

theorem Cfg.classify_end {cfg : Cfg} (h : cfg.Valid) : cfg.classify cfg.endByte = .stop := by
  simp [Cfg.classify, (Cfg.start_ne_end h).symm]

theorem Cfg.classify_eq_start {cfg : Cfg} {b : Byte} : cfg.classify b = .start ↔ b = cfg.startByte := by
  unfold Cfg.classify
  split <;> (try split) <;> simp_all

theorem Cfg.classify_eq_stop {cfg : Cfg} {b : Byte} (h : cfg.classify b = .stop) : b = cfg.endByte := by
  unfold Cfg.classify at h
  split at h <;> (try split at h) <;> simp_all

/-- R13: ordinary is what is no sentinel. -/
theorem Cfg.classify_eq_ordinary {cfg : Cfg} {b : Byte} : cfg.classify b = .ordinary ↔ cfg.isSentinel b = false := by
  unfold Cfg.classify Cfg.isSentinel
  split <;> (try split) <;> simp_all

@[simp] theorem Cfg.isSentinel_start (cfg : Cfg) : cfg.isSentinel cfg.startByte = true := by simp [Cfg.isSentinel]

@[simp] theorem Cfg.isSentinel_end (cfg : Cfg) : cfg.isSentinel cfg.endByte = true := by simp [Cfg.isSentinel]

theorem Cfg.isSentinel_iff {cfg : Cfg} {b : Byte} :
    cfg.isSentinel b = true ↔ b = cfg.startByte ∨ b = cfg.endByte := by
  simp [Cfg.isSentinel]

/-- The class of a sentinel-valued byte is not `ordinary`. -/
theorem Cfg.classify_of_sentinel {cfg : Cfg} {b : Byte} (h : cfg.isSentinel b = true) :
    cfg.classify b = .start ∨ cfg.classify b = .stop := by
  unfold Cfg.classify
  rcases Cfg.isSentinel_iff.1 h with rfl | rfl
  · exact .inl (by simp)
  · split <;> simp

/-! ### Code tables (R8) -/

theorem Cfg.msgCode_ordinary {cfg : Cfg} (h : cfg.Valid) (m : MessageKind) : cfg.isSentinel (cfg.msgCode m) = false := by
  have := h.1
  simp [Cfg.reservedBytes] at this
  cases m <;> simp [Cfg.isSentinel, Cfg.msgCode] <;> tauto

theorem Cfg.cmdCode_ordinary {cfg : Cfg} (h : cfg.Valid) (c : CommandKind) : cfg.isSentinel (cfg.cmdCode c) = false := by
  have := h.1
  simp [Cfg.reservedBytes] at this
  cases c <;> simp [Cfg.isSentinel, Cfg.cmdCode] <;> tauto

/-- `MSG_CODE^-1` undoes `MSG_CODE` (R7: injective). -/
@[simp] theorem Cfg.msgOf_msgCode {cfg : Cfg} (h : cfg.Valid) (m : MessageKind) :
    cfg.msgOf (cfg.msgCode m) = some m := by
  have := h.1
  simp [Cfg.reservedBytes] at this
  cases m <;> simp [Cfg.msgOf, MessageKind.all, Cfg.msgCode, List.find?, this, beq_false_of_ne]

/-- `CMD_CODE^-1` undoes `CMD_CODE` (R7: injective). -/
@[simp] theorem Cfg.cmdOf_cmdCode {cfg : Cfg} (h : cfg.Valid) (c : CommandKind) :
    cfg.cmdOf (cfg.cmdCode c) = some c := by
  have := h.1
  simp [Cfg.reservedBytes] at this
  cases c <;> simp [Cfg.cmdOf, CommandKind.all, Cfg.cmdCode, List.find?, this, beq_false_of_ne]

/-- A message code is no command code (R7: disjoint ranges). -/
@[simp] theorem Cfg.cmdOf_msgCode {cfg : Cfg} (h : cfg.Valid) (m : MessageKind) : cfg.cmdOf (cfg.msgCode m) = none := by
  have := h.1
  simp [Cfg.reservedBytes] at this
  cases m <;> simp [Cfg.cmdOf, CommandKind.all, Cfg.msgCode, Cfg.cmdCode] <;> tauto

/-- A command code is no message code (R7: disjoint ranges). -/
@[simp] theorem Cfg.msgOf_cmdCode {cfg : Cfg} (h : cfg.Valid) (c : CommandKind) : cfg.msgOf (cfg.cmdCode c) = none := by
  have := h.1
  simp [Cfg.reservedBytes] at this
  cases c <;> simp [Cfg.msgOf, MessageKind.all, Cfg.msgCode, Cfg.cmdCode] <;> tauto

theorem Cfg.msgOf_eq_some {cfg : Cfg} {k : Byte} {m : MessageKind} (h : cfg.msgOf k = some m) : cfg.msgCode m = k := by
  simpa using List.find?_some h

theorem Cfg.cmdOf_eq_some {cfg : Cfg} {k : Byte} {c : CommandKind} (h : cfg.cmdOf k = some c) : cfg.cmdCode c = k := by
  simpa using List.find?_some h

theorem Cfg.mem_msgCodes {cfg : Cfg} {k : Byte} : k ∈ cfg.msgCodes ↔ ∃ m, cfg.msgCode m = k := by
  constructor
  · intro h
    obtain ⟨m, _, hm⟩ := List.mem_map.1 h
    exact ⟨m, hm⟩
  · rintro ⟨m, rfl⟩
    exact List.mem_map.2 ⟨m, by cases m <;> simp [MessageKind.all], rfl⟩

theorem Cfg.mem_cmdCodes {cfg : Cfg} {k : Byte} : k ∈ cfg.cmdCodes ↔ ∃ c, cfg.cmdCode c = k := by
  constructor
  · intro h
    obtain ⟨c, _, hc⟩ := List.mem_map.1 h
    exact ⟨c, hc⟩
  · rintro ⟨c, rfl⟩
    exact List.mem_map.2 ⟨c, by cases c <;> simp [CommandKind.all], rfl⟩

/-- A byte that `MSG_CODE^-1` does not know is no message code. -/
theorem Cfg.msgOf_eq_none {cfg : Cfg} {k : Byte} (h : cfg.msgOf k = none) : k ∉ cfg.msgCodes := by
  intro hk
  obtain ⟨m, hm, rfl⟩ := List.mem_map.1 hk
  simpa using List.find?_eq_none.1 h m hm

/-- A byte that `CMD_CODE^-1` does not know is no command code. -/
theorem Cfg.cmdOf_eq_none {cfg : Cfg} {k : Byte} (h : cfg.cmdOf k = none) : k ∉ cfg.cmdCodes := by
  intro hk
  obtain ⟨c, hc, rfl⟩ := List.mem_map.1 hk
  simpa using List.find?_eq_none.1 h c hc

/-- R96: the frame of a Message types back to it. -/
@[simp] theorem typeFrame_msgCode {cfg : Cfg} (h : cfg.Valid) (m : MessageKind) (p : List Byte) :
    typeFrame cfg (cfg.msgCode m) p = some (Message.toInstr ⟨m, p⟩) := by
  simp only [typeFrame, Cfg.cmdOf_msgCode h, Cfg.msgOf_msgCode h]

/-- R96: the frame of a Command types back to it. -/
@[simp] theorem typeFrame_cmdCode {cfg : Cfg} (h : cfg.Valid) (c : CommandKind) (p : List Byte) :
    typeFrame cfg (cfg.cmdCode c) p = some (Command.toInstr ⟨c, p⟩) := by
  simp only [typeFrame, Cfg.cmdOf_cmdCode h]

/-- Everything `typeFrame` can answer: a Command of the code, or a Message of the code. -/
theorem typeFrame_eq_some {cfg : Cfg} {k : Byte} {p : List Byte} {i : Instr} (h : typeFrame cfg k p = some i) :
    (∃ c, cfg.cmdCode c = k ∧ i = Command.toInstr ⟨c, p⟩) ∨ (∃ m, cfg.msgCode m = k ∧ i = Message.toInstr ⟨m, p⟩) := by
  unfold typeFrame at h
  split at h
  · rename_i c hc
    cases h
    exact .inl ⟨c, Cfg.cmdOf_eq_some hc, rfl⟩
  · split at h
    · rename_i m hm
      cases h
      exact .inr ⟨m, Cfg.msgOf_eq_some hm, rfl⟩
    · cases h

@[simp] theorem encode_message (cfg : Cfg) (m : Message) :
    encode cfg m.toInstr = encodeFrame cfg (cfg.msgCode m.kind) m.payload := by
  obtain ⟨k, p⟩ := m
  cases k <;> rfl

@[simp] theorem encode_command (cfg : Cfg) (c : Command) :
    encode cfg c.toInstr = encodeFrame cfg (cfg.cmdCode c.kind) c.args := by
  obtain ⟨k, p⟩ := c
  cases k <;> rfl

@[simp] theorem Message.payload_toInstr (m : Message) : m.toInstr.payload = m.payload := by
  obtain ⟨k, p⟩ := m
  cases k <;> rfl

@[simp] theorem Command.payload_toInstr (c : Command) : c.toInstr.payload = c.args := by
  obtain ⟨k, p⟩ := c
  cases k <;> rfl

/-- Every instruction is a Message, a Command or a sentinel. -/
theorem Instr.cases_typed (i : Instr) :
    (∃ m : Message, i = m.toInstr) ∨ (∃ c : Command, i = c.toInstr) ∨ i = .startByte ∨ i = .endByte := by
  cases i with
  | getIdentity p => exact .inr (.inl ⟨⟨.getIdentity, p⟩, rfl⟩)
  | getData p => exact .inr (.inl ⟨⟨.getData, p⟩, rfl⟩)
  | ack p => exact .inl ⟨⟨.ack, p⟩, rfl⟩
  | nack p => exact .inl ⟨⟨.nack, p⟩, rfl⟩
  | success p => exact .inl ⟨⟨.success, p⟩, rfl⟩
  | error p => exact .inl ⟨⟨.error, p⟩, rfl⟩
  | identity p => exact .inl ⟨⟨.identity, p⟩, rfl⟩
  | data p => exact .inl ⟨⟨.data, p⟩, rfl⟩
  | startByte => exact .inr (.inr (.inl rfl))
  | endByte => exact .inr (.inr (.inr rfl))

/-! ### Checksum -/

@[simp] theorem Cfg.csStep_zero_left (cfg : Cfg) (b : Byte) : cfg.csStep 0#8 b = b := by
  unfold Cfg.csStep
  split <;> simp

@[simp] theorem Cfg.csStep_zero_right (cfg : Cfg) (b : Byte) : cfg.csStep b 0#8 = b := by
  unfold Cfg.csStep
  split <;> simp

/-- R93: the checksum of an empty frame is its kind, in both modes. -/
@[simp] theorem Cfg.cs_empty (cfg : Cfg) (k : Byte) : cfg.cs k 0#8 [] = k := by simp [Cfg.cs]

theorem Cfg.cs_nil (cfg : Cfg) (k l : Byte) : cfg.cs k l [] = cfg.csStep (cfg.csStep 0#8 k) l := rfl

/-- R93: one more payload byte is one more checksum step. -/
theorem Cfg.cs_append (cfg : Cfg) (k l b : Byte) (p : List Byte) :
    cfg.cs k l (p ++ [b]) = cfg.csStep (cfg.cs k l p) b := by
  simp [Cfg.cs]

theorem Cfg.csStep_right_comm (cfg : Cfg) (a b c : Byte) :
    cfg.csStep (cfg.csStep a b) c = cfg.csStep (cfg.csStep a c) b := by
  unfold Cfg.csStep
  split
  · rw [BitVec.add_assoc, BitVec.add_comm b c, ← BitVec.add_assoc]
  · rw [BitVec.xor_assoc, BitVec.xor_comm b c, ← BitVec.xor_assoc]

/-- R94(b): for a fixed accumulator the checksum step loses nothing. -/
theorem Cfg.csStep_injective (cfg : Cfg) {a b c : Byte} (h : cfg.csStep a b = cfg.csStep a c) : b = c := by
  unfold Cfg.csStep at h
  split at h
  · exact BitVec.add_right_inj a |>.1 h
  · exact BitVec.xor_right_inj a |>.1 h

/-- For a fixed byte the checksum step loses nothing of the accumulator. -/
theorem Cfg.csStep_injective_left (cfg : Cfg) {a b c : Byte} (h : cfg.csStep b a = cfg.csStep c a) : b = c := by
  unfold Cfg.csStep at h
  split at h
  · exact BitVec.add_left_inj a |>.1 h
  · exact BitVec.xor_left_inj a |>.1 h

/-- Folding the same bytes onto two accumulators keeps them apart. -/
theorem Cfg.foldl_csStep_injective (cfg : Cfg) (p : List Byte) {a b : Byte}
    (h : p.foldl cfg.csStep a = p.foldl cfg.csStep b) : a = b := by
  induction p generalizing a b with
  | nil => exact h
  | cons c p ih => exact cfg.csStep_injective_left (ih h)

/-! ### Escaping -/

@[simp] theorem Cfg.escape_nil (cfg : Cfg) : cfg.escape [] = [] := rfl

@[simp] theorem Cfg.escape_cons (cfg : Cfg) (b : Byte) (p : List Byte) :
    cfg.escape (b :: p) = cfg.esc b ++ cfg.escape p := by
  simp [Cfg.escape]

/-- R74: the escaped payload has `L + s` wire bytes. -/
theorem Cfg.length_escape (cfg : Cfg) (p : List Byte) :
    (cfg.escape p).length = p.length + cfg.sentinelCount p := by
  induction p with
  | nil => rfl
  | cons b p ih =>
    rw [Cfg.escape_cons, List.length_append, ih]
    cases hb : cfg.isSentinel b <;> simp [Cfg.esc, Cfg.sentinelCount, hb] <;> omega

/-- R89: de-escaping undoes escaping and stops where the payload ends. -/
theorem unescape_escape (cfg : Cfg) (p rest : List Byte) :
    unescape cfg p.length (cfg.escape p ++ rest) = .ok (p, rest) := by
  induction p with
  | nil => rfl
  | cons b p ih =>
    cases hb : cfg.isSentinel b <;> simp [Cfg.esc, unescape, hb, ih]

/-- Everything de-escaping can answer: the bytes read are the escaped payload and the rest. -/
theorem unescape_eq_ok {cfg : Cfg} {n : Nat} {bs p rest : List Byte} (h : unescape cfg n bs = .ok (p, rest)) :
    p.length = n ∧ bs = cfg.escape p ++ rest := by
  induction n generalizing bs p with
  | zero =>
    simp only [unescape, Except.ok.injEq, Prod.mk.injEq] at h
    obtain ⟨rfl, rfl⟩ := h
    simp
  | succ n ih =>
    cases bs with
    | nil => simp [unescape] at h
    | cons b bs =>
      simp only [unescape] at h
      split at h
      · rename_i hb
        cases bs with
        | nil => simp at h
        | cons c cs =>
          simp only at h
          split at h
          · rename_i hc
            subst hc
            split at h
            · rename_i q r hq
              cases h
              obtain ⟨hl, hcs⟩ := ih hq
              exact ⟨by simp [hl], by simp [Cfg.esc, hb, hcs]⟩
            · cases h
          · cases h
      · rename_i hb
        split at h
        · rename_i q r hq
          cases h
          obtain ⟨hl, hcs⟩ := ih hq
          exact ⟨by simp [hl], by simp [Cfg.esc, hb, hcs]⟩
        · cases h

/-! ### Frames -/

/-- R77: a frame has five fixed bytes and the escaped payload. -/
theorem length_encodeFrame (cfg : Cfg) (k : Byte) (p : List Byte) :
    (encodeFrame cfg k p).length = 5 + p.length + cfg.sentinelCount p := by
  simp [encodeFrame, Cfg.length_escape]
  omega

/-- R160: the frame of an empty payload. -/
@[simp] theorem encodeFrame_empty (cfg : Cfg) (k : Byte) :
    encodeFrame cfg k [] = [cfg.startByte, k, 0#8, k, cfg.endByte] := by
  simp [encodeFrame]

theorem toNat_length {p : List Byte} (h : PayloadFits p) : (BitVec.ofNat 8 p.length).toNat = p.length := by
  rw [BitVec.toNat_ofNat]
  exact Nat.mod_eq_of_lt (by omega)

end Sys2Proof
end

