-- ==== Sys2Proof/Laws/Memory.lean ====
section
/-! SUPPORT. The laws of `BUF`: read after write, the canonical form is kept, and the first entries after a store
(20_memory.md R54, R55; 10_state.md R31). -/

namespace Sys2Proof.Machine

open Sys2Proof

@[simp] theorem Memory.get_nil (i : Nat) : Memory.get [] i = none := rfl

/-- Reading the entry just put gives the byte. -/
@[simp] theorem Memory.get_put_same (m : Memory) (i : Nat) (v : Byte) : (m.put i v).get i = some v := by
  induction m with
  | nil => simp [Memory.put, Memory.get]
  | cons c m ih =>
    obtain ⟨a, w⟩ := c
    simp only [Memory.put]
    split
    · simp [Memory.get]
    · split
      · simp [Memory.get]
      · rename_i h1 h2
        simp [Memory.get, Ne.symm h2, ih]

/-- Putting a byte leaves every other entry alone. -/
theorem Memory.get_put_other (m : Memory) {i j : Nat} (v : Byte) (h : j ≠ i) : (m.put i v).get j = m.get j := by
  induction m with
  | nil => simp [Memory.put, Memory.get, Ne.symm h]
  | cons c m ih =>
    obtain ⟨a, w⟩ := c
    simp only [Memory.put]
    split
    · simp [Memory.get, Ne.symm h]
    · split
      · rename_i h1 h2
        subst h2
        simp [Memory.get, Ne.symm h]
      · simp only [Memory.get, ih]

/-- What can stand in a memory after a put: the new cell or an old one. -/
theorem Memory.mem_put {m : Memory} {i : Nat} {v : Byte} {c : Host.Cell} (h : c ∈ m.put i v) : c = (i, v) ∨ c ∈ m := by
  induction m with
  | nil => simpa [Memory.put] using h
  | cons d m ih =>
    obtain ⟨a, w⟩ := d
    simp only [Memory.put] at h
    split at h
    · simpa using h
    · split at h
      · rcases List.mem_cons.1 h with h | h
        · exact .inl h
        · exact .inr (List.mem_cons_of_mem _ h)
      · rcases List.mem_cons.1 h with h | h
        · exact .inr (h ▸ List.mem_cons_self)
        · exact (ih h).imp id (List.mem_cons_of_mem _)

/-- A put inside the index space keeps the canonical form. -/
theorem Memory.put_wf {m : Memory} {i : Nat} (v : Byte) (h : m.wf) (hi : i < bufSize) : (m.put i v).wf := by
  refine ⟨?_, fun c hc => ?_⟩
  · have hp := h.1
    clear h
    induction m with
    | nil => simp [Memory.put]
    | cons d m ih =>
      obtain ⟨a, w⟩ := d
      obtain ⟨ha, hm⟩ := List.pairwise_cons.1 hp
      simp only [Memory.put]
      split
      · rename_i hlt
        refine List.pairwise_cons.2 ⟨fun c hc => ?_, hp⟩
        rcases List.mem_cons.1 hc with rfl | hc
        · exact hlt
        · exact lt_trans hlt (ha c hc)
      · split
        · rename_i h1 h2
          subst h2
          exact List.pairwise_cons.2 ⟨ha, hm⟩
        · rename_i h1 h2
          refine List.pairwise_cons.2 ⟨fun c hc => ?_, ih hm⟩
          rcases Memory.mem_put hc with rfl | hc
          · show a < i
            omega
          · exact ha c hc
  · rcases Memory.mem_put hc with rfl | hc
    · exact hi
    · exact h.2 c hc

/-- Everything `MemWrite` can do. -/
theorem Memory.write_cases (m : Memory) (i : Nat) (v : Byte) :
    (i < bufSize ∧ m.write i v = .ok (m.put i v)) ∨ (bufSize ≤ i ∧ m.write i v = .error .bufferRange) := by
  unfold Memory.write
  split
  · exact .inl ⟨‹_›, rfl⟩
  · exact .inr ⟨by omega, rfl⟩

/-- Every memory operation keeps the canonical form: a write that succeeds does. -/
theorem Memory.write_wf {m m' : Memory} {i : Nat} {v : Byte} (hw : m.write i v = .ok m') (h : m.wf) : m'.wf := by
  rcases m.write_cases i v with ⟨hi, he⟩ | ⟨_, he⟩
  · rw [he] at hw
    cases hw
    exact Memory.put_wf v h hi
  · rw [he] at hw
    cases hw

@[simp] theorem Memory.readFirst_zero (m : Memory) : m.readFirst 0 = some [] := rfl

/-- A put at or above index `n` does not show in the first `n` entries. -/
theorem Memory.readFirst_put_of_le (m : Memory) {n i : Nat} (v : Byte) (h : n ≤ i) :
    (m.put i v).readFirst n = m.readFirst n := by
  induction n with
  | zero => rfl
  | succ n ih =>
    simp only [Memory.readFirst, ih (by omega), Memory.get_put_other m v (by omega : n ≠ i)]

/-- Storing at `n` extends the first `n` bytes by the byte stored. -/
theorem Memory.readFirst_put_succ (m : Memory) {n : Nat} (v : Byte) {p : List Byte} (h : m.readFirst n = some p) :
    (m.put n v).readFirst (n + 1) = some (p ++ [v]) := by
  simp [Memory.readFirst, Memory.readFirst_put_of_le m v (le_refl n), h]

/-- The first `n` entries are `n` bytes. -/
theorem Memory.readFirst_length {m : Memory} {n : Nat} {p : List Byte} (h : m.readFirst n = some p) : p.length = n := by
  induction n generalizing p with
  | zero => simp_all [Memory.readFirst]
  | succ n ih =>
    simp only [Memory.readFirst] at h
    split at h
    · rename_i q b hq _
      cases h
      simp [ih hq]
    · cases h

end Sys2Proof.Machine
end

