-- ==== Sys2Proof/Laws/State.lean ====
section
/-! SUPPORT. One lemma per field and update: what each named operation leaves in each field. -/

namespace Sys2Proof.Machine

open Sys2Proof

section RxOps
variable (rx : Rx) (cfg : Cfg) (b : Byte)

@[simp] theorem Rx.begin_rxs : rx.begin.rxs = .kind := rfl
@[simp] theorem Rx.begin_kindR : rx.begin.kindR = rx.kindR := rfl
@[simp] theorem Rx.begin_lenR : rx.begin.lenR = rx.lenR := rfl
@[simp] theorem Rx.begin_cnt : rx.begin.cnt = 0#8 := rfl
@[simp] theorem Rx.begin_acc : rx.begin.acc = 0#8 := rfl
@[simp] theorem Rx.begin_csok : rx.begin.csok = false := rfl
@[simp] theorem Rx.begin_pendR : rx.begin.pendR = rx.pendR := rfl
@[simp] theorem Rx.begin_buf : rx.begin.buf = rx.buf := rfl

@[simp] theorem Rx.latchKind_rxs : (rx.latchKind cfg b).rxs = .length := rfl
@[simp] theorem Rx.latchKind_kindR : (rx.latchKind cfg b).kindR = b := rfl
@[simp] theorem Rx.latchKind_lenR : (rx.latchKind cfg b).lenR = rx.lenR := rfl
@[simp] theorem Rx.latchKind_cnt : (rx.latchKind cfg b).cnt = rx.cnt := rfl
@[simp] theorem Rx.latchKind_acc : (rx.latchKind cfg b).acc = cfg.csStep 0#8 b := rfl
@[simp] theorem Rx.latchKind_csok : (rx.latchKind cfg b).csok = rx.csok := rfl
@[simp] theorem Rx.latchKind_pendR : (rx.latchKind cfg b).pendR = rx.pendR := rfl
@[simp] theorem Rx.latchKind_buf : (rx.latchKind cfg b).buf = rx.buf := rfl

@[simp] theorem Rx.latchLength_rxs : (rx.latchLength cfg b).rxs = if b = 0#8 then .checksum else .payload := rfl
@[simp] theorem Rx.latchLength_kindR : (rx.latchLength cfg b).kindR = rx.kindR := rfl
@[simp] theorem Rx.latchLength_lenR : (rx.latchLength cfg b).lenR = b := rfl
@[simp] theorem Rx.latchLength_cnt : (rx.latchLength cfg b).cnt = 0#8 := rfl
@[simp] theorem Rx.latchLength_acc : (rx.latchLength cfg b).acc = cfg.csStep rx.acc b := rfl
@[simp] theorem Rx.latchLength_csok : (rx.latchLength cfg b).csok = rx.csok := rfl
@[simp] theorem Rx.latchLength_pendR : (rx.latchLength cfg b).pendR = rx.pendR := rfl
@[simp] theorem Rx.latchLength_buf : (rx.latchLength cfg b).buf = rx.buf := rfl

@[simp] theorem Rx.hold_rxs : (rx.hold b).rxs = .payloadPend := rfl
@[simp] theorem Rx.hold_kindR : (rx.hold b).kindR = rx.kindR := rfl
@[simp] theorem Rx.hold_lenR : (rx.hold b).lenR = rx.lenR := rfl
@[simp] theorem Rx.hold_cnt : (rx.hold b).cnt = rx.cnt := rfl
@[simp] theorem Rx.hold_acc : (rx.hold b).acc = rx.acc := rfl
@[simp] theorem Rx.hold_csok : (rx.hold b).csok = rx.csok := rfl
@[simp] theorem Rx.hold_pendR : (rx.hold b).pendR = b := rfl
@[simp] theorem Rx.hold_buf : (rx.hold b).buf = rx.buf := rfl

@[simp] theorem Rx.resync_rxs : rx.resync.rxs = .awaitingStart := rfl
@[simp] theorem Rx.resync_kindR : rx.resync.kindR = rx.kindR := rfl
@[simp] theorem Rx.resync_lenR : rx.resync.lenR = rx.lenR := rfl
@[simp] theorem Rx.resync_cnt : rx.resync.cnt = rx.cnt := rfl
@[simp] theorem Rx.resync_acc : rx.resync.acc = rx.acc := rfl
@[simp] theorem Rx.resync_csok : rx.resync.csok = rx.csok := rfl
@[simp] theorem Rx.resync_pendR : rx.resync.pendR = rx.pendR := rfl
@[simp] theorem Rx.resync_buf : rx.resync.buf = rx.buf := rfl

@[simp] theorem Rx.compareChecksum_rxs : (rx.compareChecksum b).rxs = .endPos := rfl
@[simp] theorem Rx.compareChecksum_kindR : (rx.compareChecksum b).kindR = rx.kindR := rfl
@[simp] theorem Rx.compareChecksum_lenR : (rx.compareChecksum b).lenR = rx.lenR := rfl
@[simp] theorem Rx.compareChecksum_cnt : (rx.compareChecksum b).cnt = rx.cnt := rfl
@[simp] theorem Rx.compareChecksum_acc : (rx.compareChecksum b).acc = rx.acc := rfl
@[simp] theorem Rx.compareChecksum_csok : (rx.compareChecksum b).csok = (b == rx.acc) := rfl
@[simp] theorem Rx.compareChecksum_pendR : (rx.compareChecksum b).pendR = rx.pendR := rfl
@[simp] theorem Rx.compareChecksum_buf : (rx.compareChecksum b).buf = rx.buf := rfl

end RxOps

section StateOps
variable (s : State) (k : Byte) (p bytes : List Byte) (d : Delivery) (r : Reason)

@[simp] theorem State.tx_cfg : (s.tx bytes).cfg = s.cfg := rfl
@[simp] theorem State.tx_rx : (s.tx bytes).rx = s.rx := rfl
@[simp] theorem State.tx_txs : (s.tx bytes).txs = s.txs := rfl
@[simp] theorem State.tx_inputs : (s.tx bytes).inputs = s.inputs := rfl
@[simp] theorem State.tx_rxCount : (s.tx bytes).rxCount = s.rxCount := rfl
@[simp] theorem State.tx_txq : (s.tx bytes).txq = s.txq ++ bytes := rfl
@[simp] theorem State.tx_evq : (s.tx bytes).evq = s.evq := rfl
@[simp] theorem State.tx_upq : (s.tx bytes).upq = s.upq := rfl
@[simp] theorem State.tx_app : (s.tx bytes).app = s.app := rfl
@[simp] theorem State.tx_freeIdx : (s.tx bytes).freeIdx = s.freeIdx := rfl

@[simp] theorem State.send_cfg : (s.send k p).cfg = s.cfg := rfl
@[simp] theorem State.send_rx : (s.send k p).rx = s.rx := rfl
@[simp] theorem State.send_txs : (s.send k p).txs = .idle := rfl
@[simp] theorem State.send_inputs : (s.send k p).inputs = s.inputs := rfl
@[simp] theorem State.send_rxCount : (s.send k p).rxCount = s.rxCount := rfl
@[simp] theorem State.send_txq : (s.send k p).txq = s.txq ++ encodeFrame s.cfg k p := rfl
@[simp] theorem State.send_evq : (s.send k p).evq = s.evq := rfl
@[simp] theorem State.send_upq : (s.send k p).upq = s.upq := rfl
@[simp] theorem State.send_app : (s.send k p).app = s.app := rfl
@[simp] theorem State.send_freeIdx : (s.send k p).freeIdx = s.freeIdx := rfl

@[simp] theorem State.deliver_cfg : (s.deliver d).cfg = s.cfg := rfl
@[simp] theorem State.deliver_rx : (s.deliver d).rx = s.rx := rfl
@[simp] theorem State.deliver_txs : (s.deliver d).txs = s.txs := rfl
@[simp] theorem State.deliver_inputs : (s.deliver d).inputs = s.inputs := rfl
@[simp] theorem State.deliver_rxCount : (s.deliver d).rxCount = s.rxCount := rfl
@[simp] theorem State.deliver_txq : (s.deliver d).txq = s.txq := rfl
@[simp] theorem State.deliver_evq : (s.deliver d).evq = s.evq := rfl
@[simp] theorem State.deliver_upq : (s.deliver d).upq = s.upq ++ [d] := rfl
@[simp] theorem State.deliver_app : (s.deliver d).app = s.app := rfl
@[simp] theorem State.deliver_freeIdx : (s.deliver d).freeIdx = s.freeIdx := rfl

@[simp] theorem State.logMalformed_cfg : (s.logMalformed r).cfg = s.cfg := rfl
@[simp] theorem State.logMalformed_rx : (s.logMalformed r).rx = s.rx := rfl
@[simp] theorem State.logMalformed_txs : (s.logMalformed r).txs = s.txs := rfl
@[simp] theorem State.logMalformed_inputs : (s.logMalformed r).inputs = s.inputs := rfl
@[simp] theorem State.logMalformed_rxCount : (s.logMalformed r).rxCount = s.rxCount := rfl
@[simp] theorem State.logMalformed_txq : (s.logMalformed r).txq = s.txq := rfl
@[simp] theorem State.logMalformed_evq : (s.logMalformed r).evq = s.evq ++ [⟨r, s.rxCount⟩] := rfl
@[simp] theorem State.logMalformed_upq : (s.logMalformed r).upq = s.upq := rfl
@[simp] theorem State.logMalformed_app : (s.logMalformed r).app = s.app := rfl
@[simp] theorem State.logMalformed_freeIdx : (s.logMalformed r).freeIdx = s.freeIdx := rfl

@[simp] theorem State.resync_cfg : s.resync.cfg = s.cfg := rfl
@[simp] theorem State.resync_rx : s.resync.rx = s.rx.resync := rfl
@[simp] theorem State.resync_txs : s.resync.txs = s.txs := rfl
@[simp] theorem State.resync_inputs : s.resync.inputs = s.inputs := rfl
@[simp] theorem State.resync_rxCount : s.resync.rxCount = s.rxCount := rfl
@[simp] theorem State.resync_txq : s.resync.txq = s.txq := rfl
@[simp] theorem State.resync_evq : s.resync.evq = s.evq := rfl
@[simp] theorem State.resync_upq : s.resync.upq = s.upq := rfl
@[simp] theorem State.resync_app : s.resync.app = s.app := rfl
@[simp] theorem State.resync_freeIdx : s.resync.freeIdx = s.freeIdx := rfl

@[simp] theorem State.takeMalformed_cfg : (s.takeMalformed r).cfg = s.cfg := rfl
@[simp] theorem State.takeMalformed_rx : (s.takeMalformed r).rx = s.rx := rfl
@[simp] theorem State.takeMalformed_txs : (s.takeMalformed r).txs = .idle := rfl
@[simp] theorem State.takeMalformed_inputs : (s.takeMalformed r).inputs = s.inputs := rfl
@[simp] theorem State.takeMalformed_rxCount : (s.takeMalformed r).rxCount = s.rxCount := rfl
@[simp] theorem State.takeMalformed_txq : (s.takeMalformed r).txq = s.txq ++ encodeFrame s.cfg s.cfg.nackCode [] := rfl
@[simp] theorem State.takeMalformed_evq : (s.takeMalformed r).evq = s.evq ++ [⟨r, s.rxCount⟩] := rfl
@[simp] theorem State.takeMalformed_upq : (s.takeMalformed r).upq = s.upq := rfl
@[simp] theorem State.takeMalformed_app : (s.takeMalformed r).app = s.app := rfl
@[simp] theorem State.takeMalformed_freeIdx : (s.takeMalformed r).freeIdx = s.freeIdx := rfl

@[simp] theorem resetStep_cfg : (resetStep s).cfg = s.cfg := rfl
@[simp] theorem resetStep_rx : (resetStep s).rx = Rx.reset := rfl
@[simp] theorem resetStep_txs : (resetStep s).txs = .idle := rfl
@[simp] theorem resetStep_inputs : (resetStep s).inputs = s.inputs := rfl
@[simp] theorem resetStep_rxCount : (resetStep s).rxCount = s.rxCount := rfl
@[simp] theorem resetStep_txq : (resetStep s).txq = [] := rfl
@[simp] theorem resetStep_evq : (resetStep s).evq = [] := rfl
@[simp] theorem resetStep_upq : (resetStep s).upq = [] := rfl
@[simp] theorem resetStep_app : (resetStep s).app = s.app := rfl
@[simp] theorem resetStep_freeIdx : (resetStep s).freeIdx = s.freeIdx := rfl

@[simp] theorem State.consume_cfg : s.consume.cfg = s.cfg := by unfold State.consume; split <;> rfl
@[simp] theorem State.consume_rx : s.consume.rx = s.rx := by unfold State.consume; split <;> rfl
@[simp] theorem State.consume_txs : s.consume.txs = s.txs := by unfold State.consume; split <;> rfl
@[simp] theorem State.consume_txq : s.consume.txq = s.txq := by unfold State.consume; split <;> rfl
@[simp] theorem State.consume_evq : s.consume.evq = s.evq := by unfold State.consume; split <;> rfl
@[simp] theorem State.consume_upq : s.consume.upq = s.upq := by unfold State.consume; split <;> rfl
@[simp] theorem State.consume_app : s.consume.app = s.app := by unfold State.consume; split <;> rfl
@[simp] theorem State.consume_freeIdx : s.consume.freeIdx = s.freeIdx := by unfold State.consume; split <;> rfl
@[simp] theorem State.consume_inputs : s.consume.inputs = s.inputs.tail := by unfold State.consume; split <;> simp_all

end StateOps

end Sys2Proof.Machine
end

