-- ==== Sys2Proof/Laws/Receive.lean ====
section
/-! SUPPORT. What a receive step can do, said once (`rxStep_rule`); that it answers in every consistent register set; that
it keeps R32; and how runs of bytes compose (40_rx_decode.md R110, R156 to R158). -/

namespace Sys2Proof.Machine

open Sys2Proof

/-! ### `store` -/

/-- The registers after `store(b)` (R126). -/
def Rx.stored (cfg : Cfg) (b : Byte) (rx : Rx) : Rx :=
  { rx with
    buf := rx.buf.put rx.cnt.toNat b, acc := cfg.csStep rx.acc b, cnt := rx.cnt + 1#8
    rxs := if rx.cnt + 1#8 = rx.lenR then .checksum else .payload }

/-- Everything `store(b)` can do, as a step. -/
theorem storeStep_cases (cfg : Cfg) (rx : Rx) (b : Byte) :
    (rx.cnt.toNat < bufSize ∧ storeStep cfg rx b = .ok (rx.stored cfg b, .needMoreData)) ∨
      (bufSize ≤ rx.cnt.toNat ∧ storeStep cfg rx b = .error .bufferRange) := by
  rcases rx.buf.write_cases rx.cnt.toNat b with ⟨hi, he⟩ | ⟨hi, he⟩
  · exact .inl ⟨hi, by simp only [storeStep, Rx.store, he]; rfl⟩
  · exact .inr ⟨hi, by simp only [storeStep, Rx.store, he]⟩

theorem storeStep_eq {cfg : Cfg} {rx : Rx} (b : Byte) (h : rx.cnt.toNat < bufSize) :
    storeStep cfg rx b = .ok (rx.stored cfg b, .needMoreData) := by
  rcases storeStep_cases cfg rx b with ⟨_, he⟩ | ⟨hi, _⟩
  · exact he
  · omega

/-! ### The inversion lemma -/

/-- What a receive step can do: one of the rules R111 to R153, nothing else. -/
theorem rxStep_rule {cfg : Cfg} {rx rx' : Rx} {b : Byte} {ev : Event} (h : rxStep cfg rx b = .ok (rx', ev)) :
    RxRule cfg rx b rx' ev := by
  have ord : ∀ {c : Byte}, cfg.classify c = .ordinary → cfg.isSentinel c = false := Cfg.classify_eq_ordinary.1
  have sto : ∀ {c : Byte}, cfg.classify c = .stop → c = cfg.endByte := Cfg.classify_eq_stop
  have sta : ∀ {c : Byte}, cfg.classify c = .start → c = cfg.startByte := Cfg.classify_eq_start.1
  unfold rxStep at h
  split at h
  case h_1 hs =>
    unfold rxAwaitingStart at h
    split at h
    · cases h; exact .r112_begin hs (sta ‹_›)
    · cases h
      refine .r111_discard hs fun hb => ?_
      simp_all
    · cases h
      refine .r111_discard hs fun hb => ?_
      simp_all
  case h_2 hs =>
    unfold rxKind at h
    split at h
    · cases h; exact .r114_startForKind hs (sta ‹_›)
    · cases h; exact .r115_endForKind hs (sto ‹_›)
    · cases h; exact .r116_latchKind hs (ord ‹_›)
  case h_3 hs =>
    cases h
    by_cases hb : b = 0#8
    · have e : rx.latchLength cfg b =
          { rx with lenR := b, acc := cfg.csStep rx.acc b, cnt := 0#8, rxs := .checksum } := by
        simp [Rx.latchLength, hb]
      rw [e]
      exact .r120_latchEmptyLength hs hb
    · have e : rx.latchLength cfg b =
          { rx with lenR := b, acc := cfg.csStep rx.acc b, cnt := 0#8, rxs := .payload } := by
        simp [Rx.latchLength, hb]
      rw [e]
      exact .r120_latchLength hs hb
  case h_4 hs =>
    unfold rxPayload at h
    split at h
    · cases h; exact .r124_hold hs (sta ‹_› ▸ cfg.isSentinel_start)
    · cases h; exact .r124_hold hs (sto ‹_› ▸ cfg.isSentinel_end)
    · rcases storeStep_cases cfg rx b with ⟨hc, he⟩ | ⟨hc, he⟩
      · rw [he] at h; cases h; exact .r126_store hs (ord ‹_›) hc
      · rw [he] at h; cases h
  case h_5 hs =>
    unfold rxPayloadPend at h
    split at h
    · rename_i hp hb
      rcases storeStep_cases cfg rx b with ⟨hc, he⟩ | ⟨hc, he⟩
      · rw [he] at h; cases h
        exact .r128_doubled hs (sta hp ▸ cfg.isSentinel_start) ((sta hb).trans (sta hp).symm) hc
      · rw [he] at h; cases h
    · cases h; exact .r135_startThenEnd hs (sta ‹_›) (sto ‹_›)
    · cases h; exact .r133_startThenOrdinary hs (sta ‹_›) (ord ‹_›)
    · cases h; exact .r131_endThenStart hs (sto ‹_›) (sta ‹_›)
    · rename_i hp hb
      rcases storeStep_cases cfg rx b with ⟨hc, he⟩ | ⟨hc, he⟩
      · rw [he] at h; cases h
        exact .r128_doubled hs (sto hp ▸ cfg.isSentinel_end) ((sto hb).trans (sto hp).symm) hc
      · rw [he] at h; cases h
    · cases h; exact .r130_endThenOrdinary hs (sto ‹_›) (ord ‹_›)
    · cases h
  case h_6 hs => cases h; exact .r140_compare hs
  case h_7 hs =>
    unfold rxEnd at h
    split at h
    · cases h; exact .r151_startForEnd hs (sta ‹_›)
    · rename_i hb
      unfold verdict at h
      split at h
      · cases h; exact .r150_badChecksum hs (sto hb) ‹_›
      · split at h
        · rename_i hok hk
          cases h
          exact .r150_unknownKind hs (sto hb) (by simpa using hok) (by simpa [Rx.kindAccepted] using hk)
        · split at h
          · rename_i hok hk _ p hp
            cases h
            exact .r150_frame p hs (sto hb) (by simpa using hok) (by simpa [Rx.kindAccepted] using hk) hp
          · cases h
    · cases h; exact .r153_otherForEnd hs (ord ‹_›)

/-! ### Totality on consistent registers (R110) -/

theorem byte_lt_bufSize {a l : Byte} (h : a < l) : a.toNat < bufSize := by
  have h1 : a.toNat < l.toNat := h
  have h2 := l.isLt
  simp only [bufSize]
  omega

/-- R110: a receive step answers in every register set that meets R32. -/
theorem rxStep_total {cfg : Cfg} {rx : Rx} (h : rx.Inv cfg) (b : Byte) : ∃ rx' ev, rxStep cfg rx b = .ok (rx', ev) := by
  obtain ⟨hw, hc⟩ := h
  unfold Rx.Consistent at hc
  unfold rxStep
  split <;> rename_i hs <;> simp only [hs] at hc
  · unfold rxAwaitingStart; split <;> exact ⟨_, _, rfl⟩
  · unfold rxKind; split <;> exact ⟨_, _, rfl⟩
  · exact ⟨_, _, rfl⟩
  · unfold rxPayload
    split
    · exact ⟨_, _, rfl⟩
    · exact ⟨_, _, rfl⟩
    · exact ⟨_, _, storeStep_eq b (byte_lt_bufSize hc.1)⟩
  · have hcnt := byte_lt_bufSize hc.1
    unfold rxPayloadPend
    split
    · exact ⟨_, _, storeStep_eq b hcnt⟩
    · exact ⟨_, _, rfl⟩
    · exact ⟨_, _, rfl⟩
    · exact ⟨_, _, rfl⟩
    · exact ⟨_, _, storeStep_eq b hcnt⟩
    · exact ⟨_, _, rfl⟩
    · rename_i hp
      rw [Cfg.classify_eq_ordinary.1 hp] at hc
      exact absurd hc.2.2.2 (by simp)
  · exact ⟨_, _, rfl⟩
  · unfold rxEnd
    split
    · exact ⟨_, _, rfl⟩
    · unfold verdict
      split
      · exact ⟨_, _, rfl⟩
      · split
        · exact ⟨_, _, rfl⟩
        · have : ∃ p, rx.framePayload = some p := by
            unfold Rx.framePayload
            rw [← hc.1]
            cases hp : rx.buf.readFirst rx.cnt.toNat with
            | none => have := hc.2; simp [Rx.AccCovers, hp] at this
            | some p => exact ⟨p, rfl⟩
          obtain ⟨p, hp⟩ := this
          exact ⟨_, _, by rw [hp]⟩
    · exact ⟨_, _, rfl⟩

/-! ### R32 is kept -/

theorem byte_succ_of_lt {a l : Byte} (h : a < l) : (a + 1#8).toNat = a.toNat + 1 := by
  have h1 : a.toNat < l.toNat := h
  have h2 := l.isLt
  rw [BitVec.toNat_add]
  simp
  omega

/-- Storing a byte in a consistent `Payload` register set leaves a consistent one (R126, R32). -/
theorem Rx.stored_inv {cfg : Cfg} {rx : Rx} (b : Byte) (hw : rx.buf.wf) (hlt : rx.cnt < rx.lenR)
    (ha : rx.AccCovers cfg) (hok : rx.csok = false) : (rx.stored cfg b).Inv cfg := by
  have hacc : (rx.stored cfg b).AccCovers cfg := by
    cases hp : rx.buf.readFirst rx.cnt.toNat with
    | none => simp [Rx.AccCovers, hp] at ha
    | some p =>
      simp only [Rx.AccCovers, hp, Option.map_some, Option.some.injEq] at ha
      simp only [Rx.AccCovers, Rx.stored, byte_succ_of_lt hlt, Memory.readFirst_put_succ _ _ hp, Option.map_some,
        Cfg.cs_append, ha]
  refine ⟨Memory.put_wf b hw (byte_lt_bufSize hlt), ?_⟩
  unfold Rx.Consistent
  by_cases he : rx.cnt + 1#8 = rx.lenR
  · have hs : (rx.stored cfg b).rxs = .checksum := by simp [Rx.stored, he]
    rw [hs]
    exact ⟨he, hacc, hok⟩
  · have hs : (rx.stored cfg b).rxs = .payload := by simp [Rx.stored, he]
    rw [hs]
    refine ⟨?_, hacc, hok⟩
    have h1 : rx.cnt.toNat < rx.lenR.toNat := hlt
    have h2 := byte_succ_of_lt hlt
    have h3 : (rx.cnt + 1#8).toNat ≠ rx.lenR.toNat := fun h => he (BitVec.eq_of_toNat_eq h)
    show (rx.cnt + 1#8).toNat < rx.lenR.toNat
    omega

/-- R32: every receive step keeps the invariants between the registers, and the form of `BUF`. -/
theorem rxStep_inv {cfg : Cfg} {rx rx' : Rx} {b : Byte} {ev : Event} (h : rx.Inv cfg)
    (hstep : rxStep cfg rx b = .ok (rx', ev)) : rx'.Inv cfg := by
  obtain ⟨hw, hc⟩ := h
  have hr := rxStep_rule hstep
  clear hstep
  have beginInv : Rx.Inv cfg { rx with cnt := 0#8, acc := 0#8, csok := false, rxs := .kind } := ⟨hw, rfl, rfl, rfl⟩
  have syncInv : Rx.Inv cfg { rx with rxs := .awaitingStart } := ⟨hw, trivial⟩
  unfold Rx.Consistent at hc
  cases hr with
  | r111_discard hs _ => exact ⟨hw, by simp [Rx.Consistent, hs]⟩
  | r112_begin => exact beginInv
  | r114_startForKind => exact beginInv
  | r115_endForKind => exact syncInv
  | r116_latchKind hs _ => simp only [hs] at hc; exact ⟨hw, hc.1, rfl, hc.2.2⟩
  | r120_latchEmptyLength hs hb =>
    simp only [hs] at hc
    subst hb
    exact ⟨hw, rfl, by simp [Rx.AccCovers, Cfg.cs_nil, hc.2.1], hc.2.2⟩
  | r120_latchLength hs hb =>
    simp only [hs] at hc
    refine ⟨hw, ?_, by simp [Rx.AccCovers, Cfg.cs_nil, hc.2.1], hc.2.2⟩
    show 0 < b.toNat
    exact Nat.pos_of_ne_zero fun h0 => hb (BitVec.eq_of_toNat_eq (by simpa using h0))
  | r124_hold hs hb => simp only [hs] at hc; exact ⟨hw, hc.1, hc.2.1, hc.2.2, hb⟩
  | r126_store hs _ _ => simp only [hs] at hc; exact Rx.stored_inv b hw hc.1 hc.2.1 hc.2.2
  | r128_doubled hs _ _ _ => simp only [hs] at hc; exact Rx.stored_inv b hw hc.1 hc.2.1 hc.2.2.1
  | r130_endThenOrdinary => exact syncInv
  | r131_endThenStart => exact beginInv
  | r133_startThenOrdinary => exact ⟨hw, rfl, rfl, rfl⟩
  | r135_startThenEnd => exact syncInv
  | r140_compare hs => simp only [hs] at hc; exact ⟨hw, hc.1, hc.2.1⟩
  | r150_badChecksum => exact syncInv
  | r150_unknownKind => exact syncInv
  | r150_frame => exact syncInv
  | r151_startForEnd => exact beginInv
  | r153_otherForEnd => exact syncInv

/-! ### Runs of bytes -/

@[simp] theorem rxRun_nil (cfg : Cfg) (rx : Rx) : rxRun cfg rx [] = .ok (rx, []) := rfl

/-- A run of one byte more, when the first step and the rest answer. -/
theorem rxRun_cons {cfg : Cfg} {rx rx' rx'' : Rx} {b : Byte} {bs : List Byte} {ev : Event} {evs : List Event}
    (h1 : rxStep cfg rx b = .ok (rx', ev)) (h2 : rxRun cfg rx' bs = .ok (rx'', evs)) :
    rxRun cfg rx (b :: bs) = .ok (rx'', ev :: evs) := by
  simp [rxRun, h1, h2]

/-- Everything a run of at least one byte can do. -/
theorem rxRun_cons_ok {cfg : Cfg} {rx rx'' : Rx} {b : Byte} {bs : List Byte} {evs : List Event}
    (h : rxRun cfg rx (b :: bs) = .ok (rx'', evs)) :
    ∃ rx' ev evs', rxStep cfg rx b = .ok (rx', ev) ∧ rxRun cfg rx' bs = .ok (rx'', evs') ∧ evs = ev :: evs' := by
  simp only [rxRun] at h
  split at h
  · cases h
  · rename_i rx' ev h1
    split at h
    · cases h
    · rename_i rx2 evs' h2
      cases h
      exact ⟨rx', ev, evs', h1, h2, rfl⟩

/-- Runs compose. -/
theorem rxRun_append {cfg : Cfg} {rx rx' rx'' : Rx} {xs ys : List Byte} {evs evs' : List Event}
    (h1 : rxRun cfg rx xs = .ok (rx', evs)) (h2 : rxRun cfg rx' ys = .ok (rx'', evs')) :
    rxRun cfg rx (xs ++ ys) = .ok (rx'', evs ++ evs') := by
  induction xs generalizing rx evs with
  | nil => cases h1; exact h2
  | cons b xs ih =>
    obtain ⟨r, ev, e, hs, hr, rfl⟩ := rxRun_cons_ok h1
    exact rxRun_cons hs (ih hr)

/-- R110 along a run: consistent registers answer to every byte sequence, and stay consistent. -/
theorem rxRun_total {cfg : Cfg} {rx : Rx} (h : rx.Inv cfg) (bs : List Byte) :
    ∃ rx' evs, rxRun cfg rx bs = .ok (rx', evs) ∧ rx'.Inv cfg := by
  induction bs generalizing rx with
  | nil => exact ⟨rx, [], rfl, h⟩
  | cons b bs ih =>
    obtain ⟨r, ev, hs⟩ := rxStep_total h b
    obtain ⟨r', evs, hr, hi⟩ := ih (rxStep_inv h hs)
    exact ⟨r', ev :: evs, rxRun_cons hs hr, hi⟩

/-! ### Receiving a payload (R74, R89, R128) -/

/-- Receiving one escaped logical byte stores it; only `PEND_R`, dead afterwards, tells a pair from a single byte. -/
theorem rxRun_esc {cfg : Cfg} {rx : Rx} (b : Byte) (hs : rx.rxs = .payload) (hc : rx.cnt.toNat < bufSize) :
    ∃ v, rxRun cfg rx (cfg.esc b)
      = .ok ({ rx.stored cfg b with pendR := v }, List.replicate (cfg.esc b).length .needMoreData) := by
  cases hb : cfg.isSentinel b with
  | false =>
    refine ⟨rx.pendR, ?_⟩
    have h1 : rxStep cfg rx b = .ok (rx.stored cfg b, .needMoreData) := by
      simp only [rxStep, hs, rxPayload, Cfg.classify_eq_ordinary.2 hb]
      exact storeStep_eq b hc
    simp only [Cfg.esc, hb]
    exact rxRun_cons h1 rfl
  | true =>
    refine ⟨b, ?_⟩
    have h1 : rxStep cfg rx b = .ok (rx.hold b, .needMoreData) := by
      rcases Cfg.classify_of_sentinel hb with h | h <;> simp only [rxStep, hs, rxPayload, h] <;> rfl
    have h2 : rxStep cfg (rx.hold b) b = .ok ({ rx.stored cfg b with pendR := b }, .needMoreData) := by
      have h3 : storeStep cfg (rx.hold b) b = .ok ((rx.hold b).stored cfg b, .needMoreData) := storeStep_eq b hc
      have h4 : rxStep cfg (rx.hold b) b = storeStep cfg (rx.hold b) b := by
        rcases Cfg.classify_of_sentinel hb with h | h <;> simp [rxStep, rxPayloadPend, h]
      rw [h4, h3]
      rfl
    simp only [Cfg.esc, hb]
    exact rxRun_cons h1 (rxRun_cons h2 rfl)

/-- Receiving the rest `p` of an escaped payload, when `q` is stored already and `p` is all that is owed: the payload is
in `BUF`, the checksum covers it, the decoder is at CHECKSUM, and every byte but the deciding ones emitted
`NeedMoreData`. -/
theorem rxRun_escape {cfg : Cfg} {p : List Byte} (hne : p ≠ []) {rx : Rx} {q : List Byte} (hs : rx.rxs = .payload)
    (hq : rx.buf.readFirst rx.cnt.toNat = some q) (hacc : rx.acc = cfg.cs rx.kindR rx.lenR q)
    (hlen : rx.cnt.toNat + p.length = rx.lenR.toNat) :
    ∃ rx', rxRun cfg rx (cfg.escape p) = .ok (rx', List.replicate (cfg.escape p).length .needMoreData) ∧
      rx'.rxs = .checksum ∧ rx'.kindR = rx.kindR ∧ rx'.lenR = rx.lenR ∧ rx'.cnt = rx.lenR ∧ rx'.csok = rx.csok ∧
      rx'.buf.readFirst rx.lenR.toNat = some (q ++ p) ∧ rx'.acc = cfg.cs rx.kindR rx.lenR (q ++ p) := by
  induction p generalizing rx q with
  | nil => exact absurd rfl hne
  | cons b p ih =>
    have hl := rx.lenR.isLt
    simp only [List.length_cons] at hlen
    have hc : rx.cnt < rx.lenR := by
      show rx.cnt.toNat < rx.lenR.toNat
      omega
    have hsucc := byte_succ_of_lt hc
    obtain ⟨v, hrun⟩ := rxRun_esc (cfg := cfg) b hs (byte_lt_bufSize hc)
    have hq' : (rx.stored cfg b).buf.readFirst (rx.cnt + 1#8).toNat = some (q ++ [b]) := by
      rw [hsucc]
      exact Memory.readFirst_put_succ _ _ hq
    have hacc' : cfg.csStep rx.acc b = cfg.cs rx.kindR rx.lenR (q ++ [b]) := by rw [Cfg.cs_append, hacc]
    cases p with
    | nil =>
      have he : rx.cnt + 1#8 = rx.lenR := BitVec.eq_of_toNat_eq (by rw [hsucc]; simpa using hlen)
      refine ⟨{ rx.stored cfg b with pendR := v }, by simpa using hrun, by simp [Rx.stored, he], rfl, rfl, he, rfl, ?_,
        hacc'⟩
      simpa only [he] using hq'
    | cons c p =>
      have hne' : rx.cnt + 1#8 ≠ rx.lenR := fun h => by
        have := congrArg BitVec.toNat h
        rw [hsucc] at this
        simp at hlen
        omega
      have hs' : ({ rx.stored cfg b with pendR := v } : Rx).rxs = .payload := by simp [Rx.stored, hne']
      obtain ⟨rx', h1, h2, h3, h4, h5, h6, h7, h8⟩ := ih (by simp) hs' hq' hacc' (by
        show (rx.cnt + 1#8).toNat + _ = rx.lenR.toNat
        rw [hsucc]; omega)
      refine ⟨rx', ?_, h2, h3, h4, h5, h6, ?_, ?_⟩
      · rw [Cfg.escape_cons, List.length_append, List.replicate_add]
        exact rxRun_append hrun h1
      · simpa [Rx.stored] using h7
      · simpa [Rx.stored] using h8

/-! ### Receiving a frame up to its END (R158, R269) -/

/-- The wire bytes of a frame before its CHECKSUM. -/
def frameHead (cfg : Cfg) (k : Byte) (p : List Byte) : List Byte :=
  [cfg.startByte, k, BitVec.ofNat 8 p.length] ++ cfg.escape p

theorem encodeFrame_eq (cfg : Cfg) (k : Byte) (p : List Byte) :
    encodeFrame cfg k p = frameHead cfg k p ++ [cfg.cs k (BitVec.ofNat 8 p.length) p, cfg.endByte] := rfl

/-- A frame received from `AwaitingStart` up to the byte before its CHECKSUM: KIND, LENGTH and payload are in the
registers, and nothing was decided. -/
theorem rxRun_frameHead {cfg : Cfg} {rx : Rx} {k : Byte} {p : List Byte} (hs : rx.rxs = .awaitingStart)
    (hk : cfg.isSentinel k = false) (hp : PayloadFits p) :
    ∃ rx', rxRun cfg rx (frameHead cfg k p) = .ok (rx', List.replicate (frameHead cfg k p).length .needMoreData) ∧
      rx'.rxs = .checksum ∧ rx'.kindR = k ∧ rx'.lenR = BitVec.ofNat 8 p.length ∧ rx'.cnt = rx'.lenR ∧
      rx'.csok = false ∧ rx'.framePayload = some p ∧ rx'.acc = cfg.cs k (BitVec.ofNat 8 p.length) p := by
  have hlen := toNat_length hp
  have h1 : rxStep cfg rx cfg.startByte = .ok (rx.begin, .needMoreData) := by simp [rxStep, hs, rxAwaitingStart, more]
  have h2 : rxStep cfg rx.begin k = .ok (rx.begin.latchKind cfg k, .needMoreData) := by
    simp [rxStep, rxKind, Cfg.classify_eq_ordinary.2 hk, more]
  set l : Byte := BitVec.ofNat 8 p.length with hl
  set r3 := (rx.begin.latchKind cfg k).latchLength cfg l with hr3
  have h3 : rxStep cfg (rx.begin.latchKind cfg k) l = .ok (r3, .needMoreData) := by simp [rxStep, rxLength, more, hr3]
  cases p with
  | nil =>
    refine ⟨r3, rxRun_cons h1 (rxRun_cons h2 (rxRun_cons h3 rfl)), ?_, rfl, rfl, ?_, rfl, ?_, rfl⟩
    · simp [hr3, hl]
    · simp [hr3, hl]
    · simp [hr3, hl, Rx.framePayload]
  | cons b p =>
    have hl0 : l ≠ 0#8 := fun h => by
      have := congrArg BitVec.toNat h
      rw [hlen] at this
      simp at this
    have hs3 : r3.rxs = .payload := by simp [hr3, hl0]
    obtain ⟨rx', e1, e2, e3, e4, e5, e6, e7, e8⟩ :=
      rxRun_escape (cfg := cfg) (p := b :: p) (rx := r3) (q := []) (by simp) hs3 (by simp [hr3])
        (by simp [hr3, Cfg.cs_nil]) (by simpa [hr3] using hlen.symm)
    refine ⟨rx', ?_, e2, e3, e4, e5.trans e4.symm, e6.trans rfl, ?_, by simpa [hr3] using e8⟩
    · exact rxRun_cons h1 (rxRun_cons h2 (rxRun_cons h3 e1))
    · rw [Rx.framePayload, e4]
      simpa using e7

/-- The same with the CHECKSUM byte `c` received too: the decoder awaits END with the comparison held. -/
theorem rxRun_toEnd {cfg : Cfg} {rx : Rx} {k c : Byte} {p : List Byte} (hs : rx.rxs = .awaitingStart)
    (hk : cfg.isSentinel k = false) (hp : PayloadFits p) :
    ∃ rx', rxRun cfg rx (frameHead cfg k p ++ [c])
        = .ok (rx', List.replicate (frameHead cfg k p ++ [c]).length .needMoreData) ∧
      rx'.rxs = .endPos ∧ rx'.kindR = k ∧ rx'.framePayload = some p ∧
      rx'.csok = (c == cfg.cs k (BitVec.ofNat 8 p.length) p) := by
  obtain ⟨r, h1, h2, h3, -, -, -, h7, h8⟩ := rxRun_frameHead (cfg := cfg) (rx := rx) hs hk hp
  have hc : rxStep cfg r c = .ok (r.compareChecksum c, .needMoreData) := by simp [rxStep, h2, rxChecksum, more]
  refine ⟨r.compareChecksum c, ?_, rfl, h3, h7, by simp [h8]⟩
  rw [rxRun_append h1 (rxRun_cons hc (rxRun_nil cfg _)), List.length_append, List.length_singleton,
    List.replicate_succ']

/-- Bytes without START are discarded in `AwaitingStart` (R111). -/
theorem rxRun_garbage {cfg : Cfg} {rx : Rx} (hs : rx.rxs = .awaitingStart) {g : List Byte} (hg : cfg.startByte ∉ g) :
    rxRun cfg rx g = .ok (rx, List.replicate g.length .needMoreData) := by
  induction g with
  | nil => rfl
  | cons b g ih =>
    simp only [List.mem_cons, not_or] at hg
    refine rxRun_cons (rx' := rx) ?_ (ih hg.2)
    simp only [rxStep, hs, rxAwaitingStart, more]
    split
    · rename_i h
      exact absurd (Cfg.classify_eq_start.1 h).symm hg.1
    · rfl
    · rfl

theorem decisions_append (xs ys : List Event) : decisions (xs ++ ys) = decisions xs ++ decisions ys := by
  simp [decisions]

@[simp] theorem decisions_replicate (n : Nat) : decisions (List.replicate n .needMoreData) = [] := by simp [decisions]

end Sys2Proof.Machine
end

