-- ==== Sys2Proof/Laws/Engine.lean ====
section
/-! SUPPORT. What the reactions, the Dispatcher and the meanings can do, said once each (42_engine_dispatch.md). -/

namespace Sys2Proof.Machine

open Sys2Proof

/-! ### The Dispatcher (R186 to R188) -/

/-- A free answer carries at most 255 bytes (R186). -/
theorem freePayload_fits (n : Nat) (args : List Byte) : PayloadFits (freePayload n args) := by
  have := (Config.appLength n args).isLt
  simp only [PayloadFits, freePayload, List.length_map, List.length_range]
  omega

/-- A free answer is DATA or ERROR, with that payload (R188). -/
theorem freeAnswer_message (n : Nat) (args : List Byte) :
    (freeAnswer n args).message = ⟨.data, freePayload n args⟩ ∨ (freeAnswer n args).message = ⟨.error, freePayload n args⟩ := by
  unfold freeAnswer
  split
  · exact .inr rfl
  · exact .inl rfl

theorem freeAnswer_fits (n : Nat) (args : List Byte) : PayloadFits (freeAnswer n args).message.payload := by
  rcases freeAnswer_message n args with h | h <;> rw [h] <;> exact freePayload_fits n args

/-- The application's answer becomes DATA or ERROR (R188). -/
theorem AppAnswer.message_kind (a : AppAnswer) : a.message.kind = .data ∨ a.message.kind = .error := by
  cases a
  · exact .inl rfl
  · exact .inr rfl

/-- A response that keeps the contract is sent. -/
theorem respond_eq {m : Message} (h : PayloadFits m.payload) (s : State) : respond m s = .next (s.sendMessage m) := by
  simp [respond, h]

/-- Everything `respond` can do. -/
theorem respond_cases (m : Message) (s : State) :
    (PayloadFits m.payload ∧ respond m s = .next (s.sendMessage m)) ∨
      (¬ PayloadFits m.payload ∧ respond m s = .refused .dispatcherContract) := by
  unfold respond
  split
  · exact .inl ⟨‹_›, rfl⟩
  · exact .inr ⟨‹_›, rfl⟩

/-- What a dispatch leaves, whatever it answered: the response of at most 255 bytes is the only thing transmitted, and
only `TXQ`, `TXS` and the application's own fields may differ. -/
structure Dispatched (s t : State) (m : Message) : Prop where
  kind : m.kind = .identity ∨ m.kind = .data ∨ m.kind = .error
  fits : PayloadFits m.payload
  txq : t.txq = s.txq ++ encodeFrame s.cfg (s.cfg.msgCode m.kind) m.payload
  txs : t.txs = .idle
  cfg : t.cfg = s.cfg
  rx : t.rx = s.rx
  inputs : t.inputs = s.inputs
  rxCount : t.rxCount = s.rxCount
  evq : t.evq = s.evq
  upq : t.upq = s.upq

/-- Everything a dispatch can do (R186): exactly one response, or a refusal of one that breaks the contract. -/
theorem dispatch_cases (c : Command) (s : State) :
    (∃ t m, dispatch c s = .next t ∧ Dispatched s t m) ∨ dispatch c s = .refused .dispatcherContract := by
  obtain ⟨k, args⟩ := c
  cases k with
  | getIdentity =>
    rcases respond_cases ⟨.identity, s.cfg.identityString⟩ s with ⟨hf, he⟩ | ⟨_, he⟩
    · exact .inl ⟨_, _, he, ⟨.inl rfl, hf, rfl, rfl, rfl, rfl, rfl, rfl, rfl, rfl⟩⟩
    · exact .inr he
  | getData =>
    simp only [dispatch, dispatchGetData]
    split
    · rename_i a rest _
      rcases respond_cases a.message { s with app := rest } with ⟨hf, he⟩ | ⟨_, he⟩
      · exact .inl ⟨_, _, he, ⟨.inr a.message_kind, hf, rfl, rfl, rfl, rfl, rfl, rfl, rfl, rfl⟩⟩
      · exact .inr he
    · exact .inl ⟨_, (freeAnswer s.freeIdx args).message, rfl,
        ⟨.inr (AppAnswer.message_kind _), freeAnswer_fits _ _, rfl, rfl, rfl, rfl, rfl, rfl, rfl, rfl⟩⟩

/-! ### Reactions -/

/-- What the reaction to an event that decided something leaves: `ofMalformed` for a `Malformed`, `ofCommand` and
`ofMessage` for a `Frame`. -/
inductive Reacted (s : State) : Event → State → Prop
  | ofNothing : Reacted s .needMoreData s
  | ofMalformed (r : Reason) : Reacted s (.malformed r) (s.takeMalformed r)
  | ofUnknown (k : Byte) (p : List Byte) (hk : k ∉ s.cfg.rxKinds) : Reacted s (.frame k p) (s.takeMalformed .unknownKind)
  | ofCommand (c : CommandKind) (p : List Byte) (t : State) (m : Message) (hr : s.cfg.role = .device)
      (hd : Dispatched (s.deliver (.command ⟨c, p⟩)) t m) : Reacted s (.frame (s.cfg.cmdCode c) p) t
  | ofMessage (k : MessageKind) (p : List Byte) (hr : s.cfg.role = .host) :
      Reacted s (.frame (s.cfg.msgCode k) p) (s.deliver (.message ⟨k, p⟩))

/-- Everything a reaction can do (R180 to R184). -/
theorem react_cases (ev : Event) (s : State) :
    (∃ t, react ev s = .next t ∧ Reacted s ev t) ∨ react ev s = .refused .dispatcherContract := by
  cases ev with
  | needMoreData => exact .inl ⟨_, rfl, .ofNothing⟩
  | malformed r => exact .inl ⟨_, rfl, .ofMalformed r⟩
  | frame k p =>
    simp only [react, reactFrame]
    split
    · rename_i hr
      split
      · rename_i c hc
        have hk := Cfg.cmdOf_eq_some hc
        subst hk
        rcases dispatch_cases ⟨c, p⟩ (s.deliver (.command ⟨c, p⟩)) with ⟨t, m, he, hd⟩ | he
        · exact .inl ⟨t, he, .ofCommand c p t m hr hd⟩
        · exact .inr he
      · rename_i hk
        exact .inl ⟨_, rfl, .ofUnknown k p (by simpa only [Cfg.rxKinds, hr] using Cfg.cmdOf_eq_none hk)⟩
    · rename_i hr
      split
      · rename_i m hm
        have hk := Cfg.msgOf_eq_some hm
        subst hk
        exact .inl ⟨_, rfl, .ofMessage m p hr⟩
      · rename_i hk
        exact .inl ⟨_, rfl, .ofUnknown k p (by simpa only [Cfg.rxKinds, hr] using Cfg.msgOf_eq_none hk)⟩

/-- Everything the engine's receive step can do (R180). -/
theorem engineRx_cases (b : Byte) (s : State) :
    (∃ rx' ev t, rxStep s.cfg s.rx b = .ok (rx', ev) ∧ engineRx b s = .next t ∧ Reacted { s with rx := rx' } ev t) ∨
      engineRx b s = .refused .dispatcherContract ∨ ∃ f, rxStep s.cfg s.rx b = .error f ∧ engineRx b s = .fault f := by
  unfold engineRx
  split
  · rename_i f hf
    exact .inr (.inr ⟨f, hf, rfl⟩)
  · rename_i rx' ev he
    rcases react_cases ev { s with rx := rx' } with ⟨t, ht, hr⟩ | hr
    · exact .inl ⟨rx', ev, t, he, ht, hr⟩
    · exact .inr (.inl hr)

/-- A reaction leaves the configuration, the receive registers and the environment's fields alone, and `TXS` is `Idle`
after it when it was before. -/
theorem Reacted.frame {s t : State} {ev : Event} (h : Reacted s ev t) :
    t.cfg = s.cfg ∧ t.rx = s.rx ∧ t.inputs = s.inputs ∧ t.rxCount = s.rxCount ∧ (s.txs = .idle → t.txs = .idle) := by
  cases h with
  | ofNothing => exact ⟨rfl, rfl, rfl, rfl, id⟩
  | ofMalformed => exact ⟨rfl, rfl, rfl, rfl, fun _ => rfl⟩
  | ofUnknown => exact ⟨rfl, rfl, rfl, rfl, fun _ => rfl⟩
  | ofCommand c p _ m _ hd => exact ⟨hd.cfg, hd.rx, hd.inputs, hd.rxCount, fun _ => hd.txs⟩
  | ofMessage => exact ⟨rfl, rfl, rfl, rfl, id⟩

/-! ### The meanings -/

/-- A Message row's meaning is the receipt of that Message. -/
theorem exec_message (m : Message) (s : State) : exec m.toInstr s = receiveMessage m s := by
  obtain ⟨k, p⟩ := m
  cases k <;> rfl

/-- A Command row's meaning is the receipt of that Command. -/
theorem exec_command (c : Command) (s : State) : exec c.toInstr s = receiveCommand c s := by
  obtain ⟨k, p⟩ := c
  cases k <;> rfl

theorem exec_startByte (s : State) : exec .startByte s = engineRx s.cfg.startByte s := rfl

theorem exec_endByte (s : State) : exec .endByte s = engineRx s.cfg.endByte s := rfl

end Sys2Proof.Machine
end

