-- ==== Sys2Proof/Laws/PerInstr.lean ====
section
/-! SUPPORT. A statement about every instruction as syntax, constructor by constructor: the number of wire bytes of a
well-formed instruction (30_encoding.md R77, R99). -/

namespace Sys2Proof

/-- R77: a frame of a well-formed payload has 5 to 515 wire bytes. -/
theorem encodeFrame_bounds (cfg : Cfg) (k : Byte) {p : List Byte} (h : PayloadFits p) :
    5 ≤ (encodeFrame cfg k p).length ∧ (encodeFrame cfg k p).length ≤ 515 := by
  have h1 : cfg.sentinelCount p ≤ p.length := List.countP_le_length
  have h2 : p.length ≤ 255 := h
  rw [length_encodeFrame]
  omega

end Sys2Proof

namespace Sys2Proof.Laws.WireLength

open Sys2Proof

/-- The wire bytes of a well-formed instruction: one for a SENTINEL row, 5 to 515 for a KIND row. -/
def Statement (i : Instr) : Prop :=
  ∀ cfg : Cfg, i.WellFormed →
    (encode cfg i).length = 1 ∧ i.payload = [] ∨ 5 ≤ (encode cfg i).length ∧ (encode cfg i).length ≤ 515

theorem getIdentity (args : List Byte) : Statement (.getIdentity args) := fun cfg h => .inr (encodeFrame_bounds cfg _ h)
theorem getData (args : List Byte) : Statement (.getData args) := fun cfg h => .inr (encodeFrame_bounds cfg _ h)
theorem ack (payload : List Byte) : Statement (.ack payload) := fun cfg h => .inr (encodeFrame_bounds cfg _ h)
theorem nack (payload : List Byte) : Statement (.nack payload) := fun cfg h => .inr (encodeFrame_bounds cfg _ h)
theorem success (payload : List Byte) : Statement (.success payload) := fun cfg h => .inr (encodeFrame_bounds cfg _ h)
theorem error (payload : List Byte) : Statement (.error payload) := fun cfg h => .inr (encodeFrame_bounds cfg _ h)
theorem identity (payload : List Byte) : Statement (.identity payload) := fun cfg h => .inr (encodeFrame_bounds cfg _ h)
theorem data (payload : List Byte) : Statement (.data payload) := fun cfg h => .inr (encodeFrame_bounds cfg _ h)
theorem startByte : Statement .startByte := fun _ _ => .inl ⟨rfl, rfl⟩
theorem endByte : Statement .endByte := fun _ _ => .inl ⟨rfl, rfl⟩

end Sys2Proof.Laws.WireLength
end

