-- ==== Sys2Proof/Laws/Step.lean ====
section
/-! SUPPORT. What a step can do, by the input it takes (00_scope.md R6). -/

namespace Sys2Proof.Machine

open Sys2Proof

theorem State.consume_of_rx {s : State} {b : Byte} {rest : List Input} (h : s.inputs = .rx b :: rest) :
    s.consume = { s with inputs := rest, rxCount := s.rxCount + 1 } := by
  unfold State.consume
  rw [h]

/-- R99, R86: the sentinel-sensitive positions are all but LENGTH and CHECKSUM. -/
theorem RxState.sentinelSensitive_eq_true {x : RxState} : x.sentinelSensitive = true ↔ x ≠ .length ∧ x ≠ .checksum := by
  cases x <;> decide

theorem RxState.sentinelSensitive_eq_false {x : RxState} : x.sentinelSensitive = false ↔ x = .length ∨ x = .checksum := by
  cases x <;> decide

/-- Where LENGTH or CHECKSUM is due no byte runs an instruction (R86). -/
theorem instrAt_of_data {s : State} (h : s.rx.rxs.sentinelSensitive = false) (b : Byte) : instrAt s b = none := by
  simp only [instrAt, h]

/-- In every other position the class of the byte decides (R99). -/
theorem instrAt_of_sensitive {s : State} (h : s.rx.rxs.sentinelSensitive = true) (b : Byte) :
    instrAt s b = match s.cfg.classify b with
      | .start => some .startByte
      | .stop => if s.rx.rxs = .endPos ∧ s.rx.csok = true then some ((s.rx.frameInstr s.cfg).getD .endByte) else some .endByte
      | .ordinary => none := by
  simp only [instrAt, h]
  cases s.cfg.classify b <;> try rfl
  cases s.rx.frameInstr s.cfg <;> rfl

/-- The decoder a SENTINEL word is placed on (log entry 12) matches the word as a sentinel that ends no frame. -/
theorem Rx.placed_runs_row (cfg : Cfg) (b : Byte) (rx : Rx) :
    (if rx.missesSentinelRow cfg b then rx.resync else rx).rxs.sentinelSensitive = true ∧
      (b = cfg.endByte → (if rx.missesSentinelRow cfg b then rx.resync else rx).rxs ≠ .endPos) := by
  by_cases h : rx.missesSentinelRow cfg b
  · simp only [if_pos h]
    exact ⟨rfl, fun _ => by simp⟩
  · simp only [if_neg h]
    obtain ⟨h1, h2⟩ := not_or.1 h
    exact ⟨by simpa using h1, fun hb he => h2 ⟨hb, he⟩⟩

/-- A step that runs an instruction is that instruction's meaning on the state with the byte taken. -/
theorem step_of_fetch {s : State} {i : Instr} (hv : s.cfg.Valid) (h : fetch s = some i) : step s = exec i s.consume := by
  simp only [step, if_pos hv, h]

/-- A step that runs no instruction is the environment's. -/
theorem step_of_no_fetch {s : State} (hv : s.cfg.Valid) (h : fetch s = none) : step s = envStep s := by
  simp only [step, if_pos hv, h]

/-- Running the frame that the verdict holds is the receive step of its END byte: the KIND rows and the END row agree. -/
theorem exec_frameInstr {s : State} {i : Instr} (hv : s.cfg.Valid) (hs : s.rx.rxs = .endPos) (hok : s.rx.csok = true)
    (hi : s.rx.frameInstr s.cfg = some i) : exec i s = engineRx s.cfg.endByte s := by
  unfold Rx.frameInstr at hi
  split at hi
  case h_2 => cases hi
  case h_1 p hp =>
  have hstep : rxStep s.cfg s.rx s.cfg.endByte = verdict s.cfg s.rx := by
    simp only [rxStep, hs, rxEnd, Cfg.classify_end hv]
  rcases typeFrame_eq_some hi with ⟨c, hc, rfl⟩ | ⟨m, hm, rfl⟩
  · rw [exec_command]
    cases hr : s.cfg.role with
    | device =>
      have hk : s.rx.kindAccepted s.cfg = true := by
        simp [Rx.kindAccepted, Cfg.rxKinds, hr, ← hc, Cfg.mem_cmdCodes]
      have hv' : verdict s.cfg s.rx = .ok (s.rx.resync, .frame s.rx.kindR p) := by simp [verdict, hok, hk, hp]
      simp only [engineRx, hstep, hv', react, reactFrame, receiveCommand, hr, ← hc, Cfg.cmdOf_cmdCode hv]
      rfl
    | host =>
      have hk : s.rx.kindAccepted s.cfg = false := by
        simp only [Rx.kindAccepted, Cfg.rxKinds, hr]
        simp only [List.contains_eq_mem, decide_eq_false_iff_not, Cfg.mem_msgCodes]
        rintro ⟨m, hm⟩
        have := Cfg.msgOf_msgCode hv m
        rw [hm, ← hc, Cfg.msgOf_cmdCode hv] at this
        cases this
      have hv' : verdict s.cfg s.rx = .ok (s.rx.resync, .malformed .unknownKind) := by simp [verdict, hok, hk, raise]
      simp only [engineRx, hstep, hv', react, receiveCommand, hr]
      rfl
  · rw [exec_message]
    cases hr : s.cfg.role with
    | device =>
      have hk : s.rx.kindAccepted s.cfg = false := by
        simp only [Rx.kindAccepted, Cfg.rxKinds, hr]
        simp only [List.contains_eq_mem, decide_eq_false_iff_not, Cfg.mem_cmdCodes]
        rintro ⟨c, hc⟩
        have := Cfg.cmdOf_cmdCode hv c
        rw [hc, ← hm, Cfg.cmdOf_msgCode hv] at this
        cases this
      have hv' : verdict s.cfg s.rx = .ok (s.rx.resync, .malformed .unknownKind) := by simp [verdict, hok, hk, raise]
      simp only [engineRx, hstep, hv', react, receiveMessage, hr]
      rfl
    | host =>
      have hk : s.rx.kindAccepted s.cfg = true := by
        simp [Rx.kindAccepted, Cfg.rxKinds, hr, ← hm, Cfg.mem_msgCodes]
      have hv' : verdict s.cfg s.rx = .ok (s.rx.resync, .frame s.rx.kindR p) := by simp [verdict, hok, hk, hp]
      simp only [engineRx, hstep, hv', react, reactFrame, receiveMessage, hr, ← hm, Cfg.msgOf_msgCode hv]
      rfl

/-- R180: whatever instruction a received byte runs, the step is the engine's receive step of that byte. -/
theorem step_rx {s : State} {b : Byte} {rest : List Input} (hv : s.cfg.Valid) (h : s.inputs = .rx b :: rest) :
    step s = engineRx b s.consume := by
  have hf : fetch s = instrAt s b := by simp only [fetch, h]
  unfold instrAt at hf
  split at hf
  · rw [step_of_no_fetch hv hf]
    simp only [envStep, h]
  split at hf
  · rename_i hb
    rw [step_of_fetch hv hf, exec_startByte, State.consume_cfg, Cfg.classify_eq_start.1 hb]
  · rename_i hb
    have hbe := Cfg.classify_eq_stop hb
    split at hf
    · rename_i hvd
      split at hf
      · rename_i i hi
        rw [step_of_fetch hv hf, hbe, ← State.consume_cfg s]
        exact exec_frameInstr (s := s.consume) (by simpa using hv) (by simpa using hvd.1) (by simpa using hvd.2)
          (by simpa using hi)
      · rw [step_of_fetch hv hf, exec_endByte, State.consume_cfg, hbe]
    · rw [step_of_fetch hv hf, exec_endByte, State.consume_cfg, hbe]
  · rw [step_of_no_fetch hv hf]
    simp only [envStep, h]

/-- R171: the step of a send request. -/
theorem step_request {s : State} {k : Byte} {p : List Byte} {rest : List Input} (hv : s.cfg.Valid)
    (h : s.inputs = .request k p :: rest) : step s = txRequest k p { s with inputs := rest } := by
  rw [step_of_no_fetch hv (by simp only [fetch, h])]
  simp only [envStep, State.consume, h]

/-- R260: the step of a reset. -/
theorem step_reset {s : State} {rest : List Input} (hv : s.cfg.Valid) (h : s.inputs = .reset :: rest) :
    step s = .next (resetStep { s with inputs := rest }) := by
  rw [step_of_no_fetch hv (by simp only [fetch, h])]
  simp only [envStep, State.consume, h]

/-- Without an input nothing happens (log entry 7). -/
theorem step_idle {s : State} (hv : s.cfg.Valid) (h : s.inputs = []) : step s = .next s := by
  rw [step_of_no_fetch hv (by simp only [fetch, h])]
  simp only [envStep, h]

/-- Everything a step to a next state can be, by the input it took; the guard of every case is in it. -/
inductive Stepped (s : State) : State → Prop
  | idle (h : s.inputs = []) : Stepped s s
  | received (b : Byte) (rest : List Input) (rx' : Rx) (ev : Event) (t : State) (h : s.inputs = .rx b :: rest)
      (hr : rxStep s.cfg s.rx b = .ok (rx', ev)) (ht : Reacted { s.consume with rx := rx' } ev t) : Stepped s t
  | requested (k : Byte) (p : List Byte) (rest : List Input) (h : s.inputs = .request k p :: rest)
      (hp : PayloadFits p) : Stepped s (State.send { s with inputs := rest } k p)
  | wasReset (rest : List Input) (h : s.inputs = .reset :: rest) : Stepped s (resetStep { s with inputs := rest })

/-- The inversion lemma of the step. -/
theorem step_cases {s t : State} (h : step s = .next t) : s.cfg.Valid ∧ Stepped s t := by
  by_cases hv : s.cfg.Valid
  · refine ⟨hv, ?_⟩
    cases hi : s.inputs with
    | nil =>
      rw [step_idle hv hi] at h
      cases h
      exact .idle hi
    | cons i rest =>
      cases i with
      | rx b =>
        rw [step_rx hv hi] at h
        rcases engineRx_cases b s.consume with ⟨rx', ev, t', he, hn, hr⟩ | he | ⟨f, _, he⟩
        · rw [hn] at h
          cases h
          exact .received b rest rx' ev _ hi (by simpa using he) hr
        · rw [he] at h
          cases h
        · rw [he] at h
          cases h
      | request k p =>
        rw [step_request hv hi] at h
        unfold txRequest at h
        split at h
        · cases h
          exact .requested k p rest hi ‹_›
        · cases h
      | reset =>
        rw [step_reset hv hi] at h
        cases h
        exact .wasReset rest hi
  · simp only [step, if_neg hv] at h
    cases h

/-! ### Runs -/

/-- A run whose first step answers goes on from there. -/
theorem run_succ {s t : State} (n : Nat) (h : step s = .next t) :
    Sys2Proof.core.run (n + 1) s = Sys2Proof.core.run n t := by
  have h' : Sys2Proof.core.step s = Host.Outcome.next t := h
  simp only [Host.Core.run, h']

/-- A run over received bytes that decide nothing changes the receive registers and the position in `RXIN` only. -/
theorem run_quiet {bs : List Byte} {s : State} {rx' : Rx} {rest : List Input} (hv : s.cfg.Valid)
    (h : rxRun s.cfg s.rx bs = .ok (rx', List.replicate bs.length .needMoreData))
    (hin : s.inputs = bs.map .rx ++ rest) (n : Nat) :
    Sys2Proof.core.run (bs.length + n) s
      = Sys2Proof.core.run n { s with rx := rx', inputs := rest, rxCount := s.rxCount + bs.length } := by
  induction bs generalizing s with
  | nil =>
    cases h
    simp only [List.map_nil, List.nil_append] at hin
    subst hin
    simp
  | cons b bs ih =>
    obtain ⟨r, ev, evs, h1, h2, h3⟩ := rxRun_cons_ok h
    simp only [List.length_cons, List.replicate_succ, List.cons.injEq] at h3
    obtain ⟨rfl, rfl⟩ := h3
    have hin' : s.inputs = .rx b :: (bs.map .rx ++ rest) := by simpa using hin
    have hst : step s = .next { s with rx := r, inputs := bs.map .rx ++ rest, rxCount := s.rxCount + 1 } := by
      rw [step_rx hv hin', State.consume_of_rx hin']
      simp only [engineRx, h1]
      rfl
    have e : (b :: bs).length + n = bs.length + n + 1 := by simp; omega
    rw [e, run_succ _ hst,
      ih (s := { s with rx := r, inputs := bs.map .rx ++ rest, rxCount := s.rxCount + 1 }) hv h2 rfl]
    simp [Nat.add_assoc, Nat.add_comm 1]

end Sys2Proof.Machine
end

