-- ==== Sys2Proof/Tests/Slice0.lean ====
section
/-! SUPPORT. The model's own tests. Expected results are copied from spec/opcode_table.json and 95_test_vectors.md (the
section is named at each test). The second half gives, for each statement with hypotheses, a concrete input that meets
them. -/

namespace Sys2Proof.Tests

open Sys2Proof Sys2Proof.Machine

/-! ### What a step gives, in comparable form -/

/-- The next state of an outcome. -/
def next? : StepOutcome → Option State
  | .next s => some s
  | .fault _ => none
  | .refused _ => none

/-- The refusal of an outcome. -/
def refusal? : StepOutcome → Option Refusal
  | .next _ => none
  | .fault _ => none
  | .refused r => some r

/-- The three output streams of a next state. -/
def streams (o : StepOutcome) : Option (List Delivery × List Reason × List Byte) :=
  (next? o).map fun s => (s.upq, s.evq.map LogEntry.reason, s.txq)

/-- The receive registers of a next state. -/
def rxOf (o : StepOutcome) : Option Rx := (next? o).map State.rx

/-! ### Small states -/

/-- The reference configuration with `XOR8`. -/
abbrev xorCfg : Cfg := { Cfg.reference with csumMode := .xor8 }
/-- The reference configuration at a Host. -/
abbrev hostCfg : Cfg := { Cfg.reference with role := .host }
/-- A Device in the reference configuration with these registers and inputs. -/
abbrev dev (rx : Rx) (inputs : List Input := []) : State := { State.reset with rx := rx, inputs := inputs }
/-- A Host likewise. -/
abbrev host (rx : Rx) (inputs : List Input := []) : State := { dev rx inputs with cfg := hostCfg }

/-- The register rows of 95_test_vectors.md 4.1: (RXS, KIND_R, LEN_R, CNT, ACC, CSOK, PEND_R). -/
abbrev row (rxs : RxState) (kindR lenR cnt acc : Byte) (csok : Bool := false) (pendR : Byte := 0#8) (buf : Memory := []) :
    Rx :=
  ⟨rxs, kindR, lenR, cnt, acc, csok, pendR, buf⟩

/-! ### WellFormed: each check refuses an ill-formed term -/

/-- The payload bound at its edge: 255 bytes fit, 256 do not. -/
theorem replicate_fits {n : Nat} (h : n ≤ 255) (b : Byte) : PayloadFits (List.replicate n b) := by
  rw [PayloadFits, List.length_replicate]
  exact h
theorem replicate_not_fits (b : Byte) : ¬ PayloadFits (List.replicate 256 b) := by
  rw [PayloadFits, List.length_replicate]
  decide
theorem replicate_long : 255 < (List.replicate 256 (0x00 : Byte)).length := by
  rw [List.length_replicate]
  decide

theorem test_wellFormed_longest : (Instr.data (List.replicate 255 0xA5)).WellFormed := replicate_fits (le_refl _) _
theorem test_wellFormed_payloadTooLong : ¬ (Instr.data (List.replicate 256 0x00)).WellFormed := replicate_not_fits _
theorem test_wellFormed_argsTooLong : ¬ (Instr.getData (List.replicate 256 0x00)).WellFormed := replicate_not_fits _
theorem test_wellFormed_messageTooLong : ¬ (Message.mk .error (List.replicate 256 0x00)).WellFormed := replicate_not_fits _
theorem test_wellFormed_commandTooLong : ¬ (Command.mk .getIdentity (List.replicate 256 0x00)).WellFormed := replicate_not_fits _
theorem test_wellFormed_reference : Cfg.reference.Valid ∧ hostCfg.Valid ∧ xorCfg.Valid := by decide
theorem test_wellFormed_equalSentinels : ¬ ({ Cfg.reference with endByte := 0xA5 } : Cfg).Valid := by decide
theorem test_wellFormed_kindIsSentinel : ¬ ({ Cfg.reference with dataCode := 0x5A } : Cfg).Valid := by decide
theorem test_wellFormed_codesNotInjective : ¬ ({ Cfg.reference with ackCode := 0x01 } : Cfg).Valid := by decide
theorem test_wellFormed_codesOverlap : ¬ ({ Cfg.reference with getDataCode := 0x05 } : Cfg).Valid := by decide
theorem test_wellFormed_identityTooLong :
    ¬ ({ Cfg.reference with identityString := List.replicate 256 0x00 } : Cfg).Valid :=
  fun h => replicate_not_fits _ h.2

/-! ### Decoding: the words of spec/opcode_table.json and whole frames of 95_test_vectors.md 2.3 -/

theorem test_decode_tableCommands :
    decodeTableWord 8 0x80 = some (.getIdentity []) ∧ decodeTableWord 8 0x81 = some (.getData []) := by decide
theorem test_decode_tableMessages :
    decodeTableWord 8 0x00 = some (.ack []) ∧ decodeTableWord 8 0x01 = some (.nack []) ∧
      decodeTableWord 8 0x02 = some (.success []) ∧ decodeTableWord 8 0x03 = some (.error []) ∧
      decodeTableWord 8 0x04 = some (.identity []) ∧ decodeTableWord 8 0x05 = some (.data []) := by decide
theorem test_decode_tableSentinels :
    decodeTableWord 8 0xA5 = some .startByte ∧ decodeTableWord 8 0x5A = some .endByte := by decide
theorem test_decode_tableNoRow :
    decodeTableWord 8 0x06 = none ∧ decodeTableWord 8 0x7F = none ∧ decodeTableWord 8 0x82 = none ∧
      decodeTableWord 8 0xFF = none ∧ decodeTableWord 8 0x180 = none := by decide

theorem test_decode_commands :
    decode Cfg.reference [0xA5, 0x80, 0x00, 0x80, 0x5A] = .ok (.getIdentity []) ∧
      decode Cfg.reference [0xA5, 0x80, 0x02, 0xA5, 0xA5, 0x5A, 0x5A, 0x81, 0x5A] = .ok (.getIdentity [0xA5, 0x5A]) ∧
      decode Cfg.reference [0xA5, 0x81, 0x02, 0xFF, 0xFF, 0x81, 0x5A] = .ok (.getData [0xFF, 0xFF]) := by decide
theorem test_decode_messages :
    decode Cfg.reference [0xA5, 0x00, 0x00, 0x00, 0x5A] = .ok (.ack []) ∧
      decode Cfg.reference [0xA5, 0x01, 0x02, 0xDE, 0xAD, 0x8E, 0x5A] = .ok (.nack [0xDE, 0xAD]) ∧
      decode Cfg.reference [0xA5, 0x02, 0x00, 0x02, 0x5A] = .ok (.success []) ∧
      decode Cfg.reference [0xA5, 0x03, 0x01, 0x07, 0x0B, 0x5A] = .ok (.error [0x07]) ∧
      decode Cfg.reference [0xA5, 0x04, 0x07, 0x53, 0x41, 0x56, 0x49, 0x4F, 0x55, 0x52, 0x34, 0x5A]
        = .ok (.identity [0x53, 0x41, 0x56, 0x49, 0x4F, 0x55, 0x52]) ∧
      decode Cfg.reference [0xA5, 0x05, 0x03, 0xA5, 0xA5, 0x5A, 0x5A, 0xA5, 0xA5, 0xAC, 0x5A]
        = .ok (.data [0xA5, 0x5A, 0xA5]) := by decide
theorem test_decode_sentinelRows :
    decode Cfg.reference [0xA5] = .ok .startByte ∧ decode Cfg.reference [0x5A] = .ok .endByte := by decide

/-- A checksum equal to a sentinel is sent once (2.3, corner cases); the other checksum mode. -/
theorem test_decode_checksumIsSentinel :
    decode Cfg.reference [0xA5, 0x05, 0x01, 0x54, 0x5A, 0x5A] = .ok (.data [0x54]) ∧
      decode Cfg.reference [0xA5, 0x05, 0x01, 0x9F, 0xA5, 0x5A] = .ok (.data [0x9F]) ∧
      decode xorCfg [0xA5, 0x05, 0x01, 0x5E, 0x5A, 0x5A] = .ok (.data [0x5E]) ∧
      decode xorCfg [0xA5, 0x05, 0x04, 0x10, 0xA5, 0xA5, 0x5A, 0x5A, 0x20, 0xCE, 0x5A]
        = .ok (.data [0x10, 0xA5, 0x5A, 0x20]) := by decide

/-- Every way a byte sequence is no instruction, by name (4.3). -/
theorem test_decode_rejections :
    decode Cfg.reference [] = .error .needMoreData ∧
      decode Cfg.reference [0xA5, 0x81, 0x05, 0x11, 0x22] = .error .needMoreData ∧
      decode Cfg.reference [0x80] = .error .notStart ∧
      decode Cfg.reference [0x00, 0x80, 0x00, 0x80, 0x5A] = .error .notStart ∧
      decode Cfg.reference [0xA5, 0x5A] = .error .prematureEnd ∧
      decode Cfg.reference [0xA5, 0x81, 0x02, 0x11, 0x5A, 0x00] = .error .prematureEnd ∧
      decode Cfg.reference [0xA5, 0xA5] = .error .unexpectedStart ∧
      decode Cfg.reference [0xA5, 0x81, 0x05, 0x11, 0xA5, 0x5A] = .error .unexpectedStart ∧
      decode Cfg.reference [0xA5, 0x80, 0x00, 0x80, 0x00] = .error .missingEnd ∧
      decode Cfg.reference [0xA5, 0x81, 0x00, 0x82, 0x5A] = .error .badChecksum ∧
      decode Cfg.reference [0xA5, 0x7F, 0x00, 0x7E, 0x5A] = .error .badChecksum ∧
      decode Cfg.reference [0xA5, 0x7F, 0x00, 0x7F, 0x5A] = .error .unknownKind ∧
      decode Cfg.reference [0xA5, 0x80, 0x00, 0x80, 0x5A, 0x5A] = .error .trailingBytes := by decide

/-! ### Encoding (95_test_vectors.md 2.1, 2.2, 2.3) -/

theorem test_csStep_add8 :
    Cfg.reference.csStep 0xFF 0x01 = 0x00 ∧ Cfg.reference.csStep 0x7F 0x81 = 0x00 ∧
      Cfg.reference.csStep 0x38 0xC8 = 0x00 ∧ Cfg.reference.csStep 0x05 0x04 = 0x09 := by decide
theorem test_csStep_xor8 :
    xorCfg.csStep 0xFF 0x01 = 0xFE ∧ xorCfg.csStep 0x38 0xC8 = 0xF0 ∧ xorCfg.csStep 0xA5 0x5A = 0xFF := by decide
theorem test_esc :
    Cfg.reference.esc 0xA4 = [0xA4] ∧ Cfg.reference.esc 0xA5 = [0xA5, 0xA5] ∧ Cfg.reference.esc 0x5A = [0x5A, 0x5A] ∧
      Cfg.reference.esc 0x5B = [0x5B] := by decide
theorem test_encode_commands :
    encode Cfg.reference (.getIdentity []) = [0xA5, 0x80, 0x00, 0x80, 0x5A] ∧
      encode Cfg.reference (.getData [0xA5]) = [0xA5, 0x81, 0x01, 0xA5, 0xA5, 0x27, 0x5A] := by decide
theorem test_encode_messages :
    encode Cfg.reference (.ack []) = [0xA5, 0x00, 0x00, 0x00, 0x5A] ∧
      encode Cfg.reference (.nack []) = [0xA5, 0x01, 0x00, 0x01, 0x5A] ∧
      encode Cfg.reference (.success []) = [0xA5, 0x02, 0x00, 0x02, 0x5A] ∧
      encode Cfg.reference (.error [0x07]) = [0xA5, 0x03, 0x01, 0x07, 0x0B, 0x5A] ∧
      encode xorCfg (.identity [0x53, 0x41, 0x56, 0x49, 0x4F, 0x55, 0x52])
        = [0xA5, 0x04, 0x07, 0x53, 0x41, 0x56, 0x49, 0x4F, 0x55, 0x52, 0x46, 0x5A] ∧
      encode Cfg.reference (.data [0x5A, 0xA5]) = [0xA5, 0x05, 0x02, 0x5A, 0x5A, 0xA5, 0xA5, 0x06, 0x5A] := by decide
/-- The longest frame: 515 bytes, checksum 5F (2.3, corner cases). -/
theorem test_encode_longest :
    encode Cfg.reference (.data (List.replicate 255 0xA5))
      = [0xA5, 0x05, 0xFF] ++ List.replicate 510 0xA5 ++ [0x5F, 0x5A] := by decide +kernel

/-! ### START_BYTE and END_BYTE: the receive step of that byte (95_test_vectors.md 4.1) -/

/-- START as a delimiter: R112, R114, R131, R151. -/
theorem test_startByte_delimits :
    rxOf (exec .startByte (dev (row .awaitingStart 0x81 5 2 0xB9))) = some (row .kind 0x81 5 0 0) ∧
      rxOf (exec .startByte (dev (row .kind 0x81 5 0 0))) = some (row .kind 0x81 5 0 0) ∧
      rxOf (exec .startByte (dev (row .payloadPend 0x81 2 1 0x94 false 0x5A [(0, 0x11)])))
        = some (row .kind 0x81 2 0 0 false 0x5A [(0, 0x11)]) ∧
      streams (exec .startByte (dev (row .endPos 0x80 0 0 0x80 true)))
        = some ([], [.missingEnd], [0xA5, 0x01, 0x00, 0x01, 0x5A]) := by decide
/-- START as data or held: R120, R124, R128, R140. -/
theorem test_startByte_isData :
    rxOf (exec .startByte (dev (row .length 0x05 0 0 0x05))) = some (row .payload 0x05 0xA5 0 0xAA) ∧
      rxOf (exec .startByte (dev (row .payload 0x05 1 0 0x06))) = some (row .payloadPend 0x05 1 0 0x06 false 0xA5) ∧
      rxOf (exec .startByte (dev (row .payloadPend 0x05 1 0 0x06 false 0xA5)))
        = some (row .checksum 0x05 1 1 0xAB false 0xA5 [(0, 0xA5)]) ∧
      rxOf (exec .startByte (dev (row .checksum 0x05 1 1 0xA5 false 0 [(0, 0x9F)])))
        = some (row .endPos 0x05 1 1 0xA5 true 0 [(0, 0x9F)]) := by decide
/-- END where a delimiter is due or not: R111, R115, R135, R150. -/
theorem test_endByte_delimits :
    rxOf (exec .endByte (dev (row .awaitingStart 0x81 5 2 0xB9))) = some (row .awaitingStart 0x81 5 2 0xB9) ∧
      streams (exec .endByte (dev (row .kind 0x81 5 0 0)))
        = some ([], [.prematureEnd], [0xA5, 0x01, 0x00, 0x01, 0x5A]) ∧
      streams (exec .endByte (dev (row .payloadPend 0x81 5 1 0x97 false 0xA5 [(0, 0x11)])))
        = some ([], [.unexpectedStart], [0xA5, 0x01, 0x00, 0x01, 0x5A]) ∧
      streams (exec .endByte (dev (row .endPos 0x7F 0 0 0x7F false)))
        = some ([], [.badChecksum], [0xA5, 0x01, 0x00, 0x01, 0x5A]) := by decide
/-- END as data or held: R120, R124, R128, R140. -/
theorem test_endByte_isData :
    rxOf (exec .endByte (dev (row .length 0x05 0 0 0x05))) = some (row .payload 0x05 0x5A 0 0x5F) ∧
      rxOf (exec .endByte (dev (row .payload 0x05 1 0 0x06))) = some (row .payloadPend 0x05 1 0 0x06 false 0x5A) ∧
      rxOf (exec .endByte (dev (row .payloadPend 0x05 2 0 0x07 false 0x5A)))
        = some (row .payload 0x05 2 1 0x61 false 0x5A [(0, 0x5A)]) ∧
      rxOf (exec .endByte (dev (row .checksum 0x05 1 1 0x5A false 0 [(0, 0x54)])))
        = some (row .endPos 0x05 1 1 0x5A true 0 [(0, 0x54)]) := by decide

/-! ### Ordinary bytes (95_test_vectors.md 4.1) -/

/-- R111, R116, R120. -/
theorem test_ordinaryByte_head :
    rxOf (step (dev (row .awaitingStart 0x81 5 2 0xB9) [.rx 0x00])) = some (row .awaitingStart 0x81 5 2 0xB9) ∧
      rxOf (step (dev (row .kind 0 0 0 0) [.rx 0x81])) = some (row .length 0x81 0 0 0x81) ∧
      rxOf (step (dev (row .length 0x81 0 0 0x81) [.rx 0x00])) = some (row .checksum 0x81 0 0 0x81) ∧
      rxOf (step (dev (row .length 0x05 0 0 0x05) [.rx 0x03])) = some (row .payload 0x05 3 0 0x08) := by decide
/-- R126, R130, R133. -/
theorem test_ordinaryByte_payload :
    rxOf (step (dev (row .payload 0x05 3 0 0x08) [.rx 0x01])) = some (row .payload 0x05 3 1 0x09 false 0 [(0, 0x01)]) ∧
      rxOf (step (dev (row .payload 0x05 3 2 0x0B false 0 [(0, 0x01), (1, 0x02)]) [.rx 0x03]))
        = some (row .checksum 0x05 3 3 0x0E false 0 [(0, 0x01), (1, 0x02), (2, 0x03)]) ∧
      streams (step (dev (row .payloadPend 0x81 2 1 0x94 false 0x5A [(0, 0x11)]) [.rx 0x00]))
        = some ([], [.prematureEnd], [0xA5, 0x01, 0x00, 0x01, 0x5A]) ∧
      rxOf (step (dev (row .payloadPend 0x81 5 2 0xB9 false 0xA5 [(0, 0x11), (1, 0x22)]) [.rx 0x80]))
        = some (row .length 0x80 5 0 0x80 false 0xA5 [(0, 0x11), (1, 0x22)]) := by decide
/-- R140, R153. -/
theorem test_ordinaryByte_tail :
    rxOf (step (dev (row .checksum 0x05 0 0 0x0E) [.rx 0x0E])) = some (row .endPos 0x05 0 0 0x0E true) ∧
      rxOf (step (dev (row .checksum 0x05 0 0 0x0E) [.rx 0x0F])) = some (row .endPos 0x05 0 0 0x0E false) ∧
      streams (step (dev (row .endPos 0x80 0 0 0x80 true) [.rx 0x00]))
        = some ([], [.missingEnd], [0xA5, 0x01, 0x00, 0x01, 0x5A]) := by decide

/-! ### The KIND rows: the step of the END byte that completes the frame (95_test_vectors.md 5) -/

/-- The registers that await the END of an intact frame. -/
abbrev done (k l acc : Byte) (buf : Memory := []) : Rx := row .endPos k l l acc true 0 buf

/-- Row 1 and row 18 of section 5. -/
theorem test_getIdentity :
    streams (step (dev (done 0x80 0 0x80) [.rx 0x5A]))
        = some ([.command ⟨.getIdentity, []⟩], [],
            [0xA5, 0x04, 0x07, 0x53, 0x41, 0x56, 0x49, 0x4F, 0x55, 0x52, 0x34, 0x5A]) ∧
      streams (step (host (done 0x80 0 0x80) [.rx 0x5A])) = some ([], [.unknownKind], [0xA5, 0x01, 0x00, 0x01, 0x5A]) := by
  decide
/-- Rows 5 and 4 of section 5. -/
theorem test_getData :
    streams (step { dev (done 0x81 1 0x83 [(0, 0x01)]) [.rx 0x5A] with app := [.data [0x10, 0xA5, 0x5A, 0x20]] })
        = some ([.command ⟨.getData, [0x01]⟩], [],
            [0xA5, 0x05, 0x04, 0x10, 0xA5, 0xA5, 0x5A, 0x5A, 0x20, 0x38, 0x5A]) ∧
      streams (step { dev (done 0x81 0 0x81) [.rx 0x5A] with app := [.failure [0x07]] })
        = some ([.command ⟨.getData, []⟩], [], [0xA5, 0x03, 0x01, 0x07, 0x0B, 0x5A]) := by decide
/-- Row 16 of section 5. -/
theorem test_ack : streams (step (host (done 0x00 0 0x00) [.rx 0x5A])) = some ([.message ⟨.ack, []⟩], [], []) := by decide
/-- Rows 15 and 8 of section 5. -/
theorem test_nack :
    streams (step (host (done 0x01 0 0x01) [.rx 0x5A])) = some ([.message ⟨.nack, []⟩], [], []) ∧
      streams (step (dev (done 0x01 0 0x01) [.rx 0x5A])) = some ([], [.unknownKind], [0xA5, 0x01, 0x00, 0x01, 0x5A]) := by
  decide
/-- Row 17 of section 5. -/
theorem test_success : streams (step (host (done 0x02 0 0x02) [.rx 0x5A])) = some ([.message ⟨.success, []⟩], [], []) := by
  decide
/-- Row 14 of section 5. -/
theorem test_error :
    streams (step (host (done 0x03 1 0x0B [(0, 0x07)]) [.rx 0x5A])) = some ([.message ⟨.error, [0x07]⟩], [], []) := by decide
/-- Row 13 of section 5. -/
theorem test_identity :
    streams (step (host
        (done 0x04 7 0x34 [(0, 0x53), (1, 0x41), (2, 0x56), (3, 0x49), (4, 0x4F), (5, 0x55), (6, 0x52)]) [.rx 0x5A]))
      = some ([.message ⟨.identity, [0x53, 0x41, 0x56, 0x49, 0x4F, 0x55, 0x52]⟩], [], []) := by decide
/-- Rows 12 and 7 of section 5. -/
theorem test_data :
    streams (step (host (done 0x05 3 0x0E [(0, 0x01), (1, 0x02), (2, 0x03)]) [.rx 0x5A]))
        = some ([.message ⟨.data, [0x01, 0x02, 0x03]⟩], [], []) ∧
      streams (step (dev (done 0x05 3 0x0E [(0, 0x01), (1, 0x02), (2, 0x03)]) [.rx 0x5A]))
        = some ([], [.unknownKind], [0xA5, 0x01, 0x00, 0x01, 0x5A]) := by decide
/-- Row 6 of section 5: a frame of no kind at all runs END_BYTE. -/
theorem test_unknownKind :
    streams (step (dev (done 0x7F 0 0x7F) [.rx 0x5A])) = some ([], [.unknownKind], [0xA5, 0x01, 0x00, 0x01, 0x5A]) := by
  decide

/-! ### Requests, reset, refusals, whole frames, table words -/

/-- Program 6.3 of section 6, its first step; and a typed Message as a request (R166). -/
theorem test_request :
    streams (step (host Rx.reset [Machine.Command.request hostCfg ⟨.getData, []⟩]))
        = some ([], [], [0xA5, 0x81, 0x00, 0x81, 0x5A]) ∧
      streams (step (dev Rx.reset [Machine.Message.request Cfg.reference ⟨.error, [0x07]⟩]))
        = some ([], [], [0xA5, 0x03, 0x01, 0x07, 0x0B, 0x5A]) := by decide
theorem test_request_tooLong :
    refusal? (step (dev Rx.reset [.request 0x05 (List.replicate 256 0x00)])) = some .payloadTooLong := by decide +kernel
theorem test_dispatcherContract :
    refusal? (exec (.getData []) { dev Rx.reset with app := [.data (List.replicate 256 0x00)] })
      = some .dispatcherContract := by decide +kernel
theorem test_invalidConfig :
    refusal? (step { State.reset with cfg := { Cfg.reference with endByte := 0xA5 } }) = some .invalidConfig := by decide
/-- Section 3: the reset step from the middle of a payload. -/
theorem test_resetStep :
    (rxOf (step { dev (row .payloadPend 0x81 5 2 0xB9 false 0xA5 [(0, 0x11), (1, 0x22)]) [.reset] with
        txq := [0x01], evq := [⟨.missingEnd, 5⟩] })).map Rx.rxs = some .awaitingStart ∧
      streams (step { dev (row .payloadPend 0x81 5 2 0xB9 false 0xA5 [(0, 0x11), (1, 0x22)]) [.reset] with
        txq := [0x01], evq := [⟨.missingEnd, 5⟩] }) = some ([], [], []) := by decide
/-- Section 4.2: ten NeedMoreData, then the frame. -/
theorem test_wholeFrame :
    (rxRun hostCfg Rx.reset [0xA5, 0x05, 0x04, 0x10, 0xA5, 0xA5, 0x5A, 0x5A, 0x20, 0x38, 0x5A]).toOption.map Prod.snd
      = some (List.replicate 10 .needMoreData ++ [.frame 0x05 [0x10, 0xA5, 0x5A, 0x20]]) := by decide
/-- Section 4.3, row 16, and section 4.5, row 8: what the decoder makes of a false START and of a flipped payload bit. -/
theorem test_streams :
    (rxRun Cfg.reference Rx.reset
        [0xA5, 0x05, 0xA5, 0x80, 0x00, 0x80, 0x5A, 0xA5, 0x81, 0x00, 0x81, 0x5A]).toOption.map (fun r => decisions r.2)
        = some [.malformed .prematureEnd, .frame 0x81 []] ∧
      (rxRun { hostCfg with csumMode := .xor8 } Rx.reset
        [0xA5, 0x05, 0x01, 0xA5, 0xA0, 0x5A, 0xA5, 0x02, 0x00, 0x02, 0x5A]).toOption.map (fun r => decisions r.2)
        = some [.malformed .unexpectedStart, .malformed .unexpectedStart, .frame 0x02 []] := by decide
/-- A poll of two frames takes two calls (R156). -/
theorem test_polls :
    (decodePolls Cfg.reference Rx.reset
        [[0xA5], [], [0x80, 0x00, 0x80, 0x5A, 0xA5, 0x81, 0x00, 0x81, 0x5A]]).toOption.map Prod.snd
      = some [.frame 0x80 [], .frame 0x81 []] := by decide

/-- A table word placed after reset is what the first step runs (log entry 12). -/
theorem test_fetchWord :
    fetch (State.reset.withFetchWord 8 0x80) = some (.getIdentity []) ∧
      fetch (State.reset.withFetchWord 8 0x05) = some (.data []) ∧
      fetch (State.reset.withFetchWord 8 0xA5) = some .startByte ∧
      fetch ((dev (done 0x80 0 0x80)).withFetchWord 8 0x5A) = some .endByte ∧
      fetch ((dev (row .checksum 0x81 0 0 0x81)).withFetchWord 8 0xA5) = some .startByte := by decide
theorem test_fetchWord_runs :
    streams (step (State.reset.withFetchWord 8 0x80))
        = some ([.command ⟨.getIdentity, []⟩], [],
            [0xA5, 0x04, 0x07, 0x53, 0x41, 0x56, 0x49, 0x4F, 0x55, 0x52, 0x34, 0x5A]) ∧
      (rxOf (step (State.reset.withFetchWord 8 0xA5))).map Rx.rxs = some .kind := by decide

/-! ### Witnesses: concrete inputs that meet each statement's hypotheses -/

/-- A `BUF` whose entries 0 to `n - 1` hold 0. -/
def zeros (n : Nat) : Memory := (List.range n).map fun i => (i, 0#8)

theorem zeros_wf {n : Nat} (h : n ≤ bufSize) : Memory.wf (zeros n) := by
  refine ⟨List.pairwise_map.2 List.pairwise_lt_range, fun c hc => ?_⟩
  obtain ⟨i, hi, rfl⟩ := List.mem_map.1 hc
  exact lt_of_lt_of_le (List.mem_range.1 hi) h

theorem get_map_range' (a n i : Nat) :
    Memory.get ((List.range' a n).map fun j => (j, 0#8)) i = if a ≤ i ∧ i < a + n then some 0#8 else none := by
  induction n generalizing a with
  | zero => simp
  | succ n ih =>
    simp only [List.range'_succ, List.map_cons, Memory.get, ih]
    split <;> split <;> (try split) <;> first | rfl | omega
theorem zeros_get (n i : Nat) : (zeros n).get i = if i < n then some 0#8 else none := by
  simp [zeros, List.range_eq_range', get_map_range']
theorem zeros_readFirst {n k : Nat} (h : k ≤ n) : (zeros n).readFirst k = some (List.replicate k 0#8) := by
  induction k with
  | zero => rfl
  | succ k ih => simp [Memory.readFirst, ih (by omega), zeros_get, show k < n by omega, List.replicate_succ']
theorem cs_zeros (k l : Byte) (n : Nat) : Cfg.reference.cs k l (List.replicate n 0#8) = k + l := by
  induction n with
  | zero => simp [Cfg.cs, Cfg.csStep, Cfg.reference]
  | succ n ih => rw [List.replicate_succ', Cfg.cs_append, ih]; simp [Cfg.csStep, Cfg.reference]

/-- One payload byte owed of 255 (kind 05). -/
def lastPayload : Rx := row .payload 0x05 0xFF 254 0x04 false 0 (zeros 254)
/-- The same with a sentinel held. -/
def lastPend (b : Byte) : Rx := row .payloadPend 0x05 0xFF 254 0x04 false b (zeros 254)
/-- A frame of 255 payload bytes, its checksum good, at its END. -/
def fullEnd : Rx := row .endPos 0x05 0xFF 255 0x04 true 0 (zeros 255)
/-- A frame with its checksum bad, at its END. -/
def badEnd : Rx := row .endPos 0x81 0 0 0x81 false
/-- A frame of a kind that does not exist, its checksum good, at its END. -/
def unknownEnd : Rx := row .endPos 0x7F 0 0 0x7F true

theorem nil_wf : Memory.wf [] := ⟨List.Pairwise.nil, by simp⟩
theorem inv_awaiting (k l c a : Byte) : (row .awaitingStart k l c a).Inv Cfg.reference := ⟨nil_wf, trivial⟩
theorem nil_appFits {s : State} (h : s.app = []) : s.AppFits := fun a ha => by simp [h] at ha
theorem inv_kind : (row .kind 0x81 5 0 0).Inv Cfg.reference := ⟨by decide, by decide, by decide, rfl⟩
theorem inv_length : (row .length 0x81 5 0 0x81).Inv Cfg.reference := ⟨by decide, by decide, by decide, rfl⟩
theorem accCovers_zeros (rxs : RxState) (n : Nat) (h : n ≤ 255) (csok : Bool) (pendR : Byte) :
    (row rxs 0x05 0xFF (BitVec.ofNat 8 n) 0x04 csok pendR (zeros n)).AccCovers Cfg.reference := by
  have hn : (BitVec.ofNat 8 n).toNat = n := by
    rw [BitVec.toNat_ofNat]
    exact Nat.mod_eq_of_lt (by omega)
  simp only [Rx.AccCovers, hn, zeros_readFirst (le_refl n), Option.map_some, cs_zeros]
  decide
theorem inv_lastPayload : lastPayload.Inv Cfg.reference :=
  ⟨zeros_wf (by decide), by decide, accCovers_zeros _ 254 (by decide) _ _, rfl⟩
theorem inv_lastPend_start : (lastPend 0xA5).Inv Cfg.reference :=
  ⟨zeros_wf (by decide), by decide, accCovers_zeros _ 254 (by decide) _ _, rfl, by decide⟩
theorem inv_lastPend_end : (lastPend 0x5A).Inv Cfg.reference :=
  ⟨zeros_wf (by decide), by decide, accCovers_zeros _ 254 (by decide) _ _, rfl, by decide⟩
theorem inv_firstPayload : (row .payload 0x05 3 0 0x08).Inv Cfg.reference := ⟨nil_wf, by decide, by decide, rfl⟩
theorem inv_checksum : (row .checksum 0x81 0 0 0x81).Inv Cfg.reference := ⟨by decide, by decide, by decide, rfl⟩
theorem inv_fullEnd : fullEnd.Inv Cfg.reference := ⟨zeros_wf (by decide), by decide, accCovers_zeros _ 255 (by decide) _ _⟩
theorem inv_fullEnd_host : fullEnd.Inv hostCfg := inv_fullEnd
theorem inv_badEnd : badEnd.Inv Cfg.reference := ⟨by decide, by decide, by decide⟩
theorem inv_unknownEnd : unknownEnd.Inv Cfg.reference := ⟨by decide, by decide, by decide⟩

theorem valid_reference : Cfg.reference.Valid := by decide
theorem valid_host : hostCfg.Valid := by decide

/-- A Device whose registers are consistent meets the invariant. -/
theorem dev_inv {rx : Rx} (h : rx.Inv Cfg.reference) (inputs : List Input) : (dev rx inputs).Inv :=
  ⟨valid_reference, h, rfl⟩
/-- A Host likewise. -/
theorem host_inv {rx : Rx} (h : rx.Inv hostCfg) (inputs : List Input) : (host rx inputs).Inv := ⟨valid_host, h, rfl⟩

theorem witness_ResetStep :
    (dev (lastPend 0xA5) [.reset]).cfg.Valid ∧ (dev (lastPend 0xA5) [.reset]).inputs = [.reset] := ⟨valid_reference, rfl⟩

theorem witness_StepRunsFetchedInstruction :
    Cfg.reference.Valid ∧ fetch (dev (done 0x80 0 0x80) [.rx 0x5A]) = some (.getIdentity []) ∧
      (done 0x80 0 0x80).framePayload = some [] ∧ typeFrame Cfg.reference 0x80 [] = some (.getIdentity []) ∧
      fetch (dev badEnd [.rx 0x5A]) = some .endByte ∧ fetch (dev Rx.reset [.rx 0xA5]) = some .startByte ∧
      (row .length 0x81 5 0 0x81).rxs = .length ∧ fetch (dev (row .length 0x81 5 0 0x81) [.rx 0xA5]) = none ∧
      (row .checksum 0x81 0 0 0x81).rxs = .checksum ∧ fetch (dev (row .checksum 0x81 0 0 0x81) [.rx 0x5A]) = none ∧
      Cfg.reference.isSentinel 0x5B = false := by decide

theorem witness_TableWordIsFetchedAndRun :
    State.reset.cfg = Cfg.reference ∧ decodeTableWord 8 0x81 = some (.getData []) ∧
      decodeTableWord 8 0x5A = some .endByte := by decide

theorem witness_DecodeOfEncode :
    Cfg.reference.Valid ∧ (Instr.data (List.replicate 255 0x5A)).WellFormed ∧ Instr.endByte.WellFormed :=
  ⟨valid_reference, replicate_fits (le_refl _) _, by decide⟩

theorem witness_EncodeOfDecode :
    Cfg.reference.Valid ∧ decode Cfg.reference [0xA5, 0x81, 0x01, 0x5A, 0x5A, 0xDC, 0x5A] = .ok (.getData [0x5A]) := by
  decide

theorem witness_FrameLength :
    PayloadFits (List.replicate 255 0xA5) ∧
      (∀ b ∈ List.replicate 255 (0xA5 : Byte), b = Cfg.reference.startByte ∨ b = Cfg.reference.endByte) ∧
      (List.replicate 255 (0xA5 : Byte)).length = 255 :=
  ⟨replicate_fits (le_refl _) _, fun _ h => .inl (List.eq_of_mem_replicate h), List.length_replicate⟩

theorem witness_EncodeInjective :
    PayloadFits (List.replicate 255 0xA5) ∧
      encodeFrame Cfg.reference 0x05 (List.replicate 255 0xA5) = encodeFrame Cfg.reference 0x05 (List.replicate 255 0xA5) :=
  ⟨replicate_fits (le_refl _) _, rfl⟩

theorem witness_ChecksumOrderAndSensitivity :
    [(0x10 : Byte), 0x20].Perm [0x20, 0x10] ∧ [(0x01 : Byte), 0xFF] = [0x01] ++ [0xFF] ++ [] ∧ (0xFF : Byte) ≠ 0x7F := by
  decide

theorem witness_ExactlyOneReceiveRule : Cfg.reference.Valid ∧ lastPayload.Inv Cfg.reference ∧
    (lastPend 0xA5).Inv Cfg.reference ∧ (lastPend 0x5A).Inv Cfg.reference ∧ fullEnd.Inv Cfg.reference :=
  ⟨valid_reference, inv_lastPayload, inv_lastPend_start, inv_lastPend_end, inv_fullEnd⟩

theorem witness_ReceivedByteStep :
    (dev fullEnd [.rx 0x5A]).cfg.Valid ∧ (dev fullEnd [.rx 0x5A]).inputs = [.rx 0x5A] := ⟨valid_reference, rfl⟩

theorem witness_GarbageIsDiscarded :
    (dev Rx.reset [.rx 0x5A]).cfg.Valid ∧ (dev Rx.reset [.rx 0x5A]).rx.rxs = .awaitingStart ∧
      (0x5A : Byte) ≠ Cfg.reference.startByte ∧ (0xA4 : Byte) ≠ Cfg.reference.startByte := by decide

theorem witness_StartBeginsAccumulation : State.reset.rx.rxs = .awaitingStart := rfl

theorem witness_SentinelWhereKindIsDue :
    (dev (row .kind 0x81 5 0 0)).cfg.Valid ∧ (dev (row .kind 0x81 5 0 0)).rx.rxs = .kind := by decide

theorem witness_KindIsLatched :
    (dev (row .kind 0x81 5 0 0) [.rx 0xFF]).cfg.Valid ∧ (dev (row .kind 0x81 5 0 0) [.rx 0xFF]).rx.rxs = .kind ∧
      (dev (row .kind 0x81 5 0 0) [.rx 0xFF]).inputs = [.rx 0xFF] ∧ Cfg.reference.isSentinel 0xFF = false := by decide

theorem witness_LengthIsLatched :
    (dev (row .length 0x81 5 0 0x81) [.rx 0x00]).cfg.Valid ∧ (dev (row .length 0x81 5 0 0x81) [.rx 0x00]).rx.rxs = .length ∧
      (dev (row .length 0x81 5 0 0x81) [.rx 0x00]).inputs = [.rx 0x00] ∧
      (dev (row .length 0x81 5 0 0x81) [.rx 0xFF]).inputs = [.rx 0xFF] ∧ (0xFF : Byte) ≠ 0#8 := by decide

theorem witness_SentinelInPayloadIsHeld : (dev lastPayload).cfg.Valid ∧ (dev lastPayload).rx.rxs = .payload :=
  ⟨valid_reference, rfl⟩

theorem witness_OrdinaryPayloadByteIsStored :
    (dev lastPayload [.rx 0xA6]).cfg.Valid ∧ (dev lastPayload [.rx 0xA6]).rx.rxs = .payload ∧
      lastPayload.cnt < lastPayload.lenR ∧ (dev lastPayload [.rx 0xA6]).inputs = [.rx 0xA6] ∧
      Cfg.reference.isSentinel 0xA6 = false := ⟨valid_reference, rfl, by decide, rfl, by decide⟩

theorem witness_DoubledSentinelIsOneByte :
    (dev (lastPend 0xA5)).cfg.Valid ∧ (lastPend 0xA5).rxs = .payloadPend ∧ (lastPend 0xA5).cnt < (lastPend 0xA5).lenR ∧
      (lastPend 0xA5).pendR = Cfg.reference.startByte ∧ (lastPend 0x5A).rxs = .payloadPend ∧
      (lastPend 0x5A).pendR = Cfg.reference.endByte := ⟨valid_reference, rfl, by decide, rfl, rfl, rfl⟩

theorem witness_SingleSentinelInPayload :
    (dev (lastPend 0x5A) [.rx 0x00]).cfg.Valid ∧ (lastPend 0x5A).rxs = .payloadPend ∧
      (lastPend 0x5A).pendR = Cfg.reference.endByte ∧ (lastPend 0xA5).pendR = Cfg.reference.startByte ∧
      (dev (lastPend 0x5A) [.rx 0x00]).inputs = [.rx 0x00] ∧ (dev (lastPend 0xA5) [.rx 0x00]).inputs = [.rx 0x00] ∧
      Cfg.reference.isSentinel 0x00 = false := ⟨valid_reference, rfl, rfl, rfl, rfl, rfl, by decide⟩

theorem witness_ChecksumIsCompared :
    (dev (row .checksum 0x81 0 0 0x81) [.rx 0x5A]).cfg.Valid ∧
      (dev (row .checksum 0x81 0 0 0x81) [.rx 0x5A]).rx.rxs = .checksum ∧
      (dev (row .checksum 0x81 0 0 0x81) [.rx 0x5A]).inputs = [.rx 0x5A] := by decide

theorem witness_VerdictAtEnd :
    (dev badEnd).cfg.Valid ∧ badEnd.rxs = .endPos ∧ badEnd.csok = false ∧
      unknownEnd.rxs = .endPos ∧ unknownEnd.csok = true ∧ unknownEnd.kindR ∉ Cfg.reference.rxKinds ∧
      (host fullEnd).cfg.Valid ∧ fullEnd.rxs = .endPos ∧ fullEnd.csok = true ∧ fullEnd.kindR ∈ hostCfg.rxKinds ∧
      fullEnd.buf.readFirst fullEnd.lenR.toNat = some (List.replicate 255 0#8) :=
  ⟨valid_reference, rfl, rfl, rfl, rfl, by decide, valid_host, rfl, rfl, by decide, zeros_readFirst (n := 255) (k := 255) (le_refl _)⟩

theorem witness_MissingEnd :
    (dev badEnd [.rx 0x59]).cfg.Valid ∧ (dev badEnd [.rx 0x59]).rx.rxs = .endPos ∧
      (dev badEnd [.rx 0x59]).inputs = [.rx 0x59] ∧ Cfg.reference.isSentinel 0x59 = false := by decide

/-- Each reason is raised by some consistent register set. -/
theorem witness_CausesOfMalformed :
    Cfg.reference.Valid ∧
      ((row .kind 0x81 5 0 0).Inv Cfg.reference ∧ MalformedCause Cfg.reference (row .kind 0x81 5 0 0) 0xA5 .unexpectedStart) ∧
      ((lastPend 0x5A).Inv Cfg.reference ∧ MalformedCause Cfg.reference (lastPend 0x5A) 0xA5 .prematureEnd) ∧
      (badEnd.Inv Cfg.reference ∧ MalformedCause Cfg.reference badEnd 0xA5 .missingEnd) ∧
      (badEnd.Inv Cfg.reference ∧ MalformedCause Cfg.reference badEnd 0x5A .badChecksum) ∧
      (unknownEnd.Inv Cfg.reference ∧ MalformedCause Cfg.reference unknownEnd 0x5A .unknownKind) :=
  ⟨valid_reference, ⟨inv_kind, .inl ⟨rfl, rfl⟩⟩, ⟨inv_lastPend_end, .inr ⟨rfl, rfl, by decide⟩⟩,
    ⟨inv_badEnd, rfl, by decide⟩, ⟨inv_badEnd, rfl, rfl, rfl⟩, ⟨inv_unknownEnd, rfl, rfl, rfl, by decide⟩⟩

theorem witness_NeedMoreDataDoesNothing :
    (dev Rx.reset [.rx 0xA5]).cfg.Valid ∧ (dev Rx.reset [.rx 0xA5]).inputs = [.rx 0xA5] ∧
      rxStep Cfg.reference Rx.reset 0xA5 = .ok (row .kind 0 0 0 0, .needMoreData) := by decide

theorem witness_MalformedDrawsOneNack :
    (dev unknownEnd [.rx 0x5A]).cfg.Valid ∧ (dev unknownEnd [.rx 0x5A]).inputs = [.rx 0x5A] ∧
      rxStep Cfg.reference unknownEnd 0x5A = .ok (unknownEnd.idled, .malformed .unknownKind) := by decide

theorem witness_LogTagIsInputPosition :
    (dev badEnd [.rx 0x5A]).inputs = [.rx 0x5A] ∧ (next? (step (dev badEnd [.rx 0x5A]))).isSome = true := by decide

theorem witness_MessageAtHostIsDelivered :
    (host Rx.reset).cfg.Valid ∧ (host Rx.reset).cfg.role = .host ∧ 0x05 ∈ hostCfg.rxKinds ∧ 0x00 ∈ hostCfg.rxKinds := by
  decide

theorem witness_MessageAtDeviceIsRejected : (dev Rx.reset).cfg.role = .device := rfl

theorem witness_CommandAtHostIsRejected : (host Rx.reset).cfg.role = .host := rfl

theorem witness_GetDataWithFreeAnswer : (dev Rx.reset).cfg.role = .device ∧ (dev Rx.reset).app = [] := ⟨rfl, rfl⟩

theorem witness_GetIdentityIsAnswered :
    (dev (done 0x80 0 0x80)).cfg.Valid ∧ (dev (done 0x80 0 0x80)).cfg.role = .device := by decide

theorem witness_GetDataIsAnswered :
    (dev Rx.reset).cfg.role = .device ∧ PayloadFits (List.replicate 255 0x00) ∧
      ({ dev Rx.reset with app := [.data (List.replicate 255 0x00)] } : State).app = [.data (List.replicate 255 0x00)] ∧
      ({ dev Rx.reset with app := [.failure []] } : State).app = [.failure []] :=
  ⟨rfl, replicate_fits (le_refl _) _, rfl, rfl⟩

theorem witness_SentinelBytesComplete :
    (dev fullEnd).Inv ∧ (dev fullEnd).AppFits ∧ (dev lastPayload).Inv ∧ State.reset.Inv :=
  ⟨dev_inv inv_fullEnd _, nil_appFits rfl, dev_inv inv_lastPayload _, dev_inv (inv_awaiting _ _ _ _) _⟩

theorem witness_OneFrameOutPerEvent :
    (dev (done 0x80 0 0x80) [.rx 0x5A]).cfg.role = .device ∧
      rxStep Cfg.reference (done 0x80 0 0x80) 0x5A = .ok ((done 0x80 0 0x80).idled, .frame 0x80 []) ∧
      (next? (step (dev (done 0x80 0 0x80) [.rx 0x5A]))).isSome = true ∧
      rxStep Cfg.reference badEnd 0x5A = .ok (badEnd.idled, .malformed .badChecksum) ∧
      (next? (step (dev badEnd [.rx 0x5A]))).isSome = true ∧
      rxStep Cfg.reference Rx.reset 0x5A = .ok (Rx.reset, .needMoreData) ∧
      (next? (step (dev Rx.reset [.rx 0x5A]))).isSome = true := by decide

theorem witness_OnlyGoodCommandsAreDispatched :
    (dev (done 0x80 0 0x80) [.rx 0x5A]).cfg.role = .device ∧
      (next? (step (dev (done 0x80 0 0x80) [.rx 0x5A]))).map State.upq = some [.command ⟨.getIdentity, []⟩] ∧
      (dev (done 0x80 0 0x80) [.rx 0x5A]).upq = [] := by decide

theorem witness_RoleDecidesOnlyTheVerdict :
    Cfg.reference.Valid ∧ ¬ (fullEnd.rxs = .endPos ∧ (0x59 : Byte) = Cfg.reference.endByte) ∧
      badEnd.rxs = .endPos ∧ badEnd.csok = false := by decide

theorem witness_SendRequest :
    (dev lastPayload [.request 0xA5 (List.replicate 255 0x5A)]).cfg.Valid ∧
      (dev lastPayload [.request 0xA5 (List.replicate 255 0x5A)]).inputs = [.request 0xA5 (List.replicate 255 0x5A)] ∧
      PayloadFits (List.replicate 255 0x5A) := ⟨valid_reference, rfl, replicate_fits (le_refl _) _⟩

theorem witness_LongSendRequestIsRefused :
    (dev lastPayload [.request 0x05 (List.replicate 256 0x00)]).inputs = [.request 0x05 (List.replicate 256 0x00)] ∧
      255 < (List.replicate 256 (0x00 : Byte)).length := ⟨rfl, replicate_long⟩

theorem witness_NoInputNoChange : State.reset.cfg.Valid ∧ State.reset.inputs = [] := by decide

theorem witness_ContractBreachesAreRefused :
    ¬ ({ State.reset with cfg := { Cfg.reference with endByte := 0xA5 } } : State).cfg.Valid ∧
      ({ dev Rx.reset with app := [.data (List.replicate 256 0x00)] } : State).app = [.data (List.replicate 256 0x00)] ∧
      ({ dev Rx.reset with app := [.failure (List.replicate 256 0x00)] } : State).app
        = [.failure (List.replicate 256 0x00)] ∧
      255 < (List.replicate 256 (0x00 : Byte)).length := ⟨by decide, rfl, rfl, replicate_long⟩

theorem witness_StepKeepsInvariant :
    (dev (lastPend 0xA5) [.rx 0x00]).Inv ∧ (next? (step (dev (lastPend 0xA5) [.rx 0x00]))).isSome = true :=
  ⟨dev_inv inv_lastPend_start _, rfl⟩

theorem witness_NothingIsFatal :
    (dev lastPayload [.rx 0x00]).Inv ∧ (dev lastPayload [.rx 0x00]).AppFits ∧
      (dev lastPayload [.rx 0x00]).inputs = [.rx 0x00] ∧
      (dev Rx.reset [.request 0x05 (List.replicate 256 0x00)]).Inv ∧
      refusal? (step (dev Rx.reset [.request 0x05 (List.replicate 256 0x00)])) = some .payloadTooLong :=
  ⟨dev_inv inv_lastPayload _, nil_appFits rfl, rfl, dev_inv (inv_awaiting _ _ _ _) _, test_request_tooLong⟩

theorem witness_ConfigurationIsConstant : next? (step State.reset) = some State.reset := by decide

theorem witness_StreamsOnlyGrow :
    (∀ rest, (dev badEnd [.rx 0x5A]).inputs ≠ .reset :: rest) ∧
      (next? (step (dev badEnd [.rx 0x5A]))).map State.txq = some [0xA5, 0x01, 0x00, 0x01, 0x5A] :=
  ⟨by simp, by decide⟩

theorem witness_BufferAccessesInRange :
    (dev lastPayload [.rx 0xA6]).Inv ∧ (∀ rest, (dev lastPayload [.rx 0xA6]).inputs ≠ .reset :: rest) ∧
      lastPayload.buf.get 254 = none ∧ (dev (row .payload 0x05 3 0 0x08) [.rx 0x01]).Inv ∧
      (next? (step (dev (row .payload 0x05 3 0 0x08) [.rx 0x01]))).map (fun t => t.rx.buf.get 0) = some (some 0x01) :=
  ⟨dev_inv inv_lastPayload _, by simp, by rw [lastPayload, zeros_get]; decide,
    dev_inv inv_firstPayload _, by decide⟩

/-- Register sets that differ in every register dead in `Kind` (the KIND, the LENGTH, the held sentinel and `BUF`). -/
theorem witness_DeadRegistersDoNotMatter :
    Cfg.reference.Valid ∧ (row .kind 0x81 5 0 0).Inv Cfg.reference ∧
      (row .kind 0x7F 9 0 0 false 0x5A [(3, 0x11)]).Inv Cfg.reference ∧
      (row .kind 0x81 5 0 0).LiveEq (row .kind 0x7F 9 0 0 false 0x5A [(3, 0x11)]) ∧
      rxRun Cfg.reference (row .kind 0x81 5 0 0) [0xA5] = .ok (row .kind 0x81 5 0 0, [.malformed .unexpectedStart]) :=
  ⟨valid_reference, inv_kind, ⟨by decide, by decide, by decide, rfl⟩, ⟨rfl, rfl, rfl, rfl⟩, by decide⟩

theorem witness_RoundTrip :
    Cfg.reference.Valid ∧ Rx.reset.rxs = .awaitingStart ∧ Cfg.reference.isSentinel 0x80 = false ∧
      0x80 ∈ Cfg.reference.rxKinds ∧ Cfg.reference.isSentinel 0x7F = false ∧ 0x7F ∉ Cfg.reference.rxKinds ∧
      PayloadFits (List.replicate 255 0xA5) := 
  ⟨by decide, rfl, by decide, by decide, by decide, by decide, replicate_fits (le_refl _) _⟩

theorem witness_HostReceivesMessage :
    (host Rx.reset ((encode hostCfg (.data [0xA5])).map .rx ++ [.reset])).Inv ∧
      (host Rx.reset).cfg.role = .host ∧ (host Rx.reset).rx.rxs = .awaitingStart ∧
      (Message.mk .data [0xA5]).WellFormed ∧ (Message.mk .data [0xA5]).toInstr = .data [0xA5] :=
  ⟨host_inv ⟨nil_wf, trivial⟩ _, rfl, rfl, by decide, rfl⟩

theorem witness_DeviceAnswersCommand :
    (dev Rx.reset ((encode Cfg.reference (.getData [0x5A])).map .rx)).Inv ∧ (dev Rx.reset).cfg.role = .device ∧
      (dev Rx.reset).rx.rxs = .awaitingStart ∧ (Command.mk .getData [0x5A]).WellFormed ∧
      State.AppFits { dev Rx.reset with app := [.failure (List.replicate 255 0x00), .data []] } ∧
      State.AppFits (dev Rx.reset) :=
  ⟨dev_inv ⟨nil_wf, trivial⟩ _, rfl, rfl, by decide,
    by simp only [State.AppFits, List.mem_cons, List.not_mem_nil, or_false, forall_eq_or_imp, forall_eq, AppAnswer.message]; exact ⟨replicate_fits (le_refl _) _, by decide⟩,
    nil_appFits rfl⟩

theorem witness_GroupingIndependence :
    Cfg.reference.Valid ∧ (lastPend 0xA5).Inv Cfg.reference ∧
      [[0xA5], [], [0x80, 0x00]].flatten = [(0xA5 : Byte), 0x80, 0x00] := ⟨valid_reference, inv_lastPend_start, rfl⟩

theorem witness_FramesArriveInOrder :
    Cfg.reference.Valid ∧ Rx.reset.rxs = .awaitingStart ∧
      ∀ f ∈ [((0x80 : Byte), ([] : List Byte)), (0x81, List.replicate 255 0xA5)],
        f.1 ∈ Cfg.reference.rxKinds ∧ PayloadFits f.2 :=
  ⟨valid_reference, rfl, by
    simp only [List.mem_cons, List.not_mem_nil, or_false, forall_eq_or_imp, forall_eq]
    exact ⟨⟨by decide, by decide⟩, by decide, replicate_fits (le_refl _) _⟩⟩

theorem witness_ResyncOverGarbage :
    Cfg.reference.Valid ∧ Rx.reset.rxs = .awaitingStart ∧ 0x80 ∈ Cfg.reference.rxKinds ∧ 0x81 ∈ Cfg.reference.rxKinds ∧
      PayloadFits [0xA5] ∧ Cfg.reference.startByte ∉ [(0x00 : Byte), 0x13, 0x5A, 0xFF, 0x5A] := by decide

theorem witness_SynchronisingWord :
    Cfg.reference.Valid ∧ (lastPend 0x5A).Inv Cfg.reference ∧ fullEnd.Inv Cfg.reference ∧
      (row .length 0x81 5 0 0x81).Inv Cfg.reference ∧ (row .checksum 0x81 0 0 0x81).Inv Cfg.reference ∧
      Cfg.reference.isSentinel 0x00 = false ∧ 0x80 ∈ Cfg.reference.rxKinds ∧ PayloadFits [] :=
  ⟨valid_reference, inv_lastPend_end, inv_fullEnd, inv_length, inv_checksum, by decide, by decide, by decide⟩

theorem witness_WrongChecksumIsNeverAFrame :
    Cfg.reference.Valid ∧ Cfg.reference.isSentinel 0x81 = false ∧ PayloadFits [0x01] ∧
      (0x5A : Byte) ≠ Cfg.reference.cs 0x81 0x01 [0x01] := by decide

theorem witness_AlteredPayloadByteIsDetected :
    Cfg.reference.Valid ∧ Cfg.reference.isSentinel 0x81 = false ∧ PayloadFits ([0xA5] ++ [0x01] ++ [0x5A]) ∧
      (0x01 : Byte) ≠ 0x03 ∧ Cfg.reference.isSentinel 0x01 = false ∧ Cfg.reference.isSentinel 0x03 = false := by decide

end Sys2Proof.Tests
end

section
/-! SUPPORT. Which instruction the next received byte runs (30_encoding.md R99, R86; log entry 13), by the receive position
and the class of the byte, and the statement StepRunsFetchedInstruction. -/

namespace Sys2Proof.Machine

open Sys2Proof

/-- Taking a received byte, in the words of the statements. -/
theorem State.consume_eq_took {s : State} {b : Byte} {rest : List Input} (h : s.inputs = .rx b :: rest) :
    s.consume = s.took rest :=
  State.consume_of_rx h

theorem fetch_of_rx {s : State} {b : Byte} {rest : List Input} (h : s.inputs = .rx b :: rest) :
    fetch s = instrAt s b := by
  simp only [fetch, h]

theorem Rx.frameInstr_of_framePayload {cfg : Cfg} {rx : Rx} {p : List Byte} (h : rx.framePayload = some p) :
    rx.frameInstr cfg = typeFrame cfg rx.kindR p := by
  simp only [Rx.frameInstr, h]

/-- R71, R99: START in a sentinel-sensitive position. -/
theorem instrAt_startByte {s : State} (h : s.rx.rxs.sentinelSensitive = true) :
    instrAt s s.cfg.startByte = some .startByte := by
  rw [instrAt_of_sensitive h, Cfg.classify_start]

/-- R76, R99: END in a sentinel-sensitive position, ending no checksum-good frame. -/
theorem instrAt_endByte {s : State} (hv : s.cfg.Valid) (h : s.rx.rxs.sentinelSensitive = true)
    (hne : ¬ (s.rx.rxs = .endPos ∧ s.rx.csok = true)) : instrAt s s.cfg.endByte = some .endByte := by
  rw [instrAt_of_sensitive h, Cfg.classify_end hv]
  exact if_neg hne

/-- R150, log entry 13: the END that completes a checksum-good frame of a known kind runs that frame. -/
theorem instrAt_endByte_of_frame {s : State} {i : Instr} (hv : s.cfg.Valid) (hs : s.rx.rxs = .endPos)
    (hok : s.rx.csok = true) (hi : s.rx.frameInstr s.cfg = some i) : instrAt s s.cfg.endByte = some i := by
  have hsens : s.rx.rxs.sentinelSensitive = true := by rw [hs]; rfl
  rw [instrAt_of_sensitive hsens, Cfg.classify_end hv, hi]
  exact if_pos ⟨hs, hok⟩

/-- An ordinary byte is no row of the table, whatever the receive position. -/
theorem instrAt_of_ordinary {s : State} {b : Byte} (hb : s.cfg.isSentinel b = false) : instrAt s b = none := by
  cases h : s.rx.rxs.sentinelSensitive with
  | false => exact instrAt_of_data h b
  | true => rw [instrAt_of_sensitive h, Cfg.classify_eq_ordinary.2 hb]

/-- Settles O4: the step by `step_of_fetch`, and what is fetched by the receive position and the class of the byte. -/
theorem stepRunsFetchedInstruction : Obligations.StepRunsFetchedInstruction := by
  unfold Obligations.StepRunsFetchedInstruction
  refine ⟨fun s b rest i hv hin hf => ?_, fun s b rest hv hin => ?_⟩
  · rw [step_of_fetch hv hf, State.consume_eq_took hin]
  · rw [fetch_of_rx hin]
    refine ⟨?start, ?stop, ?frame, ?data, instrAt_of_ordinary⟩
    case start =>
      rintro rfl hl hc
      exact instrAt_startByte (RxState.sentinelSensitive_eq_true.2 ⟨hl, hc⟩)
    case stop =>
      rintro rfl hl hc hne
      exact instrAt_endByte hv (RxState.sentinelSensitive_eq_true.2 ⟨hl, hc⟩) hne
    case frame =>
      rintro rfl hs hok p i hp hi
      exact instrAt_endByte_of_frame hv hs hok ((Rx.frameInstr_of_framePayload hp).trans hi)
    case data =>
      exact fun hd => instrAt_of_data (RxState.sentinelSensitive_eq_false.2 hd) b

end Sys2Proof.Machine
end

section
/-! SUPPORT. What every step keeps (10_state.md R32, R36 to R40, R43): the statements ResetStateAsSpecified,
ResetStateMeetsInvariant, StepKeepsInvariant, ConfigurationIsConstant, StreamsOnlyGrow and LogTagIsInputPosition. -/

namespace Sys2Proof.Machine

open Sys2Proof

/-! ### After reset -/

/-- The registers after a reset meet R32 in every configuration: the row of `AwaitingStart` asks nothing. -/
theorem Rx.reset_inv (cfg : Cfg) : Rx.reset.Inv cfg := ⟨⟨.nil, by simp [Rx.reset]⟩, trivial⟩

/-- Settles O1: the fields of the reset state as they are written. -/
theorem resetStateAsSpecified : Obligations.ResetStateAsSpecified := by
  unfold Obligations.ResetStateAsSpecified
  exact ⟨rfl, rfl, rfl, rfl, rfl⟩

/-- Settles O2: the reference configuration is valid, and the registers by `Rx.reset_inv`. -/
theorem resetStateMeetsInvariant : Obligations.ResetStateMeetsInvariant := by
  unfold Obligations.ResetStateMeetsInvariant
  have hv : Cfg.reference.Valid := by decide
  exact ⟨hv, Rx.reset_inv _, rfl⟩

/-! ### The configuration and the invariant -/

/-- R40: whatever the input, the configuration is the one before. -/
theorem Stepped.cfg_eq {s t : State} (h : Stepped s t) : t.cfg = s.cfg := by
  cases h with
  | idle => rfl
  | received b rest rx' ev _ hin hr ht =>
    obtain ⟨hcfg, -, -, -, -⟩ := ht.frame
    exact hcfg.trans s.consume_cfg
  | requested => rfl
  | wasReset => rfl

/-- R32: whatever the input, consistent registers stay consistent. Only a received byte and a reset write them. -/
theorem Stepped.rx_inv {s t : State} (h : Stepped s t) (hi : s.rx.Inv s.cfg) : t.rx.Inv s.cfg := by
  cases h with
  | idle => exact hi
  | received b rest rx' ev _ hin hr ht =>
    obtain ⟨-, hrx, -, -, -⟩ := ht.frame
    rw [hrx]
    exact rxStep_inv hi hr
  | requested => exact hi
  | wasReset => exact Rx.reset_inv s.cfg

/-- R29, R32: sending is over before the step ends. -/
theorem Stepped.txs_idle {s t : State} (h : Stepped s t) (hi : s.txs = .idle) : t.txs = .idle := by
  cases h with
  | idle => exact hi
  | received b rest rx' ev _ hin hr ht =>
    obtain ⟨-, -, -, -, htxs⟩ := ht.frame
    exact htxs (s.consume_txs.trans hi)
  | requested => rfl
  | wasReset => rfl

/-- Settles O46: by `Stepped.cfg_eq`. -/
theorem configurationIsConstant : Obligations.ConfigurationIsConstant := by
  unfold Obligations.ConfigurationIsConstant
  intro s t h
  obtain ⟨-, hst⟩ := step_cases h
  exact hst.cfg_eq

/-- Settles O44: the configuration is unchanged, and the registers and `TXS` by the lemmas on `Stepped`. -/
theorem stepKeepsInvariant : Obligations.StepKeepsInvariant := by
  unfold Obligations.StepKeepsInvariant
  rintro s t ⟨hv, hrx, htxs⟩ h
  obtain ⟨-, hst⟩ := step_cases h
  have hcfg := hst.cfg_eq
  exact ⟨hcfg ▸ hv, hcfg ▸ hst.rx_inv hrx, hst.txs_idle htxs⟩

/-! ### The output streams -/

/-- R37, R182: a reaction logs nothing, or one entry with the position of the byte being consumed. -/
theorem Reacted.evq_cases {s t : State} {ev : Event} (h : Reacted s ev t) :
    t.evq = s.evq ∨ ∃ r, t.evq = s.evq ++ [⟨r, s.rxCount⟩] := by
  cases h with
  | ofNothing => exact .inl rfl
  | ofMalformed r => exact .inr ⟨r, rfl⟩
  | ofUnknown => exact .inr ⟨.unknownKind, rfl⟩
  | ofCommand c p _ m hr hd => exact .inl hd.evq
  | ofMessage => exact .inl rfl

/-- R36: a reaction only appends to `TXQ`. -/
theorem Reacted.txq_prefix {s t : State} {ev : Event} (h : Reacted s ev t) : s.txq <+: t.txq := by
  cases h with
  | ofNothing => exact List.prefix_rfl
  | ofMalformed => exact List.prefix_append _ _
  | ofUnknown => exact List.prefix_append _ _
  | ofCommand c p _ m hr hd => exact hd.txq ▸ List.prefix_append _ _
  | ofMessage => exact List.prefix_rfl

/-- R37: a reaction only appends to `EVQ`. -/
theorem Reacted.evq_prefix {s t : State} {ev : Event} (h : Reacted s ev t) : s.evq <+: t.evq := by
  rcases h.evq_cases with he | ⟨r, he⟩
  · exact he ▸ List.prefix_rfl
  · exact he ▸ List.prefix_append _ _

/-- R38: a reaction only appends to `UPQ`. -/
theorem Reacted.upq_prefix {s t : State} {ev : Event} (h : Reacted s ev t) : s.upq <+: t.upq := by
  cases h with
  | ofNothing => exact List.prefix_rfl
  | ofMalformed => exact List.prefix_rfl
  | ofUnknown => exact List.prefix_rfl
  | ofCommand c p _ m hr hd => exact hd.upq ▸ List.prefix_append _ _
  | ofMessage => exact List.prefix_append _ _

/-- Settles O47: a received byte by what `Reacted` appends to each stream, a request by what `send` appends. -/
theorem streamsOnlyGrow : Obligations.StreamsOnlyGrow := by
  unfold Obligations.StreamsOnlyGrow
  intro s t hnr h
  obtain ⟨-, hst⟩ := step_cases h
  cases hst with
  | idle => exact ⟨List.prefix_rfl, List.prefix_rfl, List.prefix_rfl⟩
  | received b rest rx' ev _ hin hr ht =>
    exact ⟨by simpa using ht.txq_prefix, by simpa using ht.evq_prefix, by simpa using ht.upq_prefix⟩
  | requested => exact ⟨List.prefix_append _ _, List.prefix_rfl, List.prefix_rfl⟩
  | wasReset rest hin => exact absurd hin (hnr rest)

/-- Settles O29: `Reacted.evq_cases` after the byte has been counted. -/
theorem logTagIsInputPosition : Obligations.LogTagIsInputPosition := by
  unfold Obligations.LogTagIsInputPosition
  intro s t b rest hin h
  obtain ⟨-, hst⟩ := step_cases h
  cases hst with
  | idle hin' => simp [hin] at hin'
  | received b' rest' rx' ev _ hin' hr ht => simpa [State.consume_of_rx hin'] using ht.evq_cases
  | requested k p rest' hin' => simp [hin] at hin'
  | wasReset rest' hin' => simp [hin] at hin'

end Sys2Proof.Machine
end

section
/-! SUPPORT. The rules R111 to R153 give back the receive step (`rxStep_of_rule`), and the statement
DeadRegistersDoNotMatter (10_state.md R33), by simulating each rule on a second register set. -/

namespace Sys2Proof.Machine

open Sys2Proof

/-! ### From the rules to the step -/

/-- R111 as an equation. -/
theorem rxAwaitingStart_of_ne {cfg : Cfg} {b : Byte} (hb : b ≠ cfg.startByte) (rx : Rx) :
    rxAwaitingStart cfg rx b = .ok (rx, .needMoreData) := by
  unfold rxAwaitingStart
  split
  · exact absurd (Cfg.classify_eq_start.1 ‹_›) hb
  · rfl
  · rfl

/-- R124 as an equation. -/
theorem rxPayload_of_sentinel {cfg : Cfg} {b : Byte} (hb : cfg.isSentinel b = true) (rx : Rx) :
    rxPayload cfg rx b = .ok (rx.hold b, .needMoreData) := by
  rcases Cfg.classify_of_sentinel hb with h | h <;> simp only [rxPayload, h, more]

/-- R128: the held sentinel again is a store. -/
theorem rxPayloadPend_of_doubled {cfg : Cfg} {rx : Rx} (hp : cfg.isSentinel rx.pendR = true) :
    rxPayloadPend cfg rx rx.pendR = storeStep cfg rx rx.pendR := by
  rcases Cfg.classify_of_sentinel hp with h | h <;> simp only [rxPayloadPend, h]

/-- R120 with the branch of the rule taken. -/
theorem Rx.latchLength_eq (cfg : Cfg) (b : Byte) (rx : Rx) : rx.latchLength cfg b =
    { rx with lenR := b, acc := cfg.csStep rx.acc b, cnt := 0#8, rxs := if b = 0#8 then .checksum else .payload } := rfl

/-- What a rule gives is what the receive step does: the converse of `rxStep_rule`. -/
theorem rxStep_of_rule {cfg : Cfg} {rx rx' : Rx} {b : Byte} {ev : Event} (hv : cfg.Valid)
    (h : RxRule cfg rx b rx' ev) : rxStep cfg rx b = .ok (rx', ev) := by
  have hend := Cfg.classify_end hv
  have ord : ∀ {c : Byte}, cfg.isSentinel c = false → cfg.classify c = .ordinary := Cfg.classify_eq_ordinary.2
  have pendStart : rx.pendR = cfg.startByte → cfg.classify rx.pendR = .start := Cfg.classify_eq_start.2
  have pendEnd : rx.pendR = cfg.endByte → cfg.classify rx.pendR = .stop := fun hp => hp ▸ hend
  cases h with
  | r111_discard hs hb => simp only [rxStep, hs, rxAwaitingStart_of_ne hb]
  | r112_begin hs hb => subst hb; simp only [rxStep, hs, rxAwaitingStart, Cfg.classify_start]; rfl
  | r114_startForKind hs hb => subst hb; simp only [rxStep, hs, rxKind, Cfg.classify_start]; rfl
  | r115_endForKind hs hb => subst hb; simp only [rxStep, hs, rxKind, hend]; rfl
  | r116_latchKind hs hb => simp only [rxStep, hs, rxKind, ord hb]; rfl
  | r120_latchEmptyLength hs hb => simp only [rxStep, hs, rxLength, more, Rx.latchLength_eq, if_pos hb]
  | r120_latchLength hs hb => simp only [rxStep, hs, rxLength, more, Rx.latchLength_eq, if_neg hb]
  | r124_hold hs hb => simp only [rxStep, hs, rxPayload_of_sentinel hb]; rfl
  | r126_store hs hb hc => simp only [rxStep, hs, rxPayload, ord hb]; exact storeStep_eq b hc
  | r128_doubled hs hp hb hc =>
    subst hb
    simp only [rxStep, hs, rxPayloadPend_of_doubled hp]
    exact storeStep_eq _ hc
  | r130_endThenOrdinary hs hp hb => simp only [rxStep, hs, rxPayloadPend, pendEnd hp, ord hb]; rfl
  | r131_endThenStart hs hp hb =>
    subst hb; simp only [rxStep, hs, rxPayloadPend, pendEnd hp, Cfg.classify_start]; rfl
  | r133_startThenOrdinary hs hp hb => simp only [rxStep, hs, rxPayloadPend, pendStart hp, ord hb]; rfl
  | r135_startThenEnd hs hp hb => subst hb; simp only [rxStep, hs, rxPayloadPend, pendStart hp, hend]; rfl
  | r140_compare hs => simp only [rxStep, hs]; rfl
  | r150_badChecksum hs hb hok => subst hb; simp only [rxStep, hs, rxEnd, hend, verdict, if_pos hok]; rfl
  | r150_unknownKind hs hb hok hk =>
    subst hb
    have hk' : rx.kindAccepted cfg = false := by simpa [Rx.kindAccepted] using hk
    simp [rxStep, hs, rxEnd, hend, verdict, hok, hk', raise, Rx.resync]
  | r150_frame p hs hb hok hk hp =>
    subst hb
    have hk' : rx.kindAccepted cfg = true := by simpa [Rx.kindAccepted] using hk
    have hp' : rx.framePayload = some p := hp
    simp [rxStep, hs, rxEnd, hend, verdict, hok, hk', hp', Rx.resync]
  | r151_startForEnd hs hb => subst hb; simp only [rxStep, hs, rxEnd, Cfg.classify_start]; rfl
  | r153_otherForEnd hs hb => simp only [rxStep, hs, rxEnd, ord hb]; rfl

/-! ### Registers live inside a payload -/

/-- Agreement on the registers that are live from PAYLOAD to END whatever the position (R32, R33): all but `PEND_R`, and
of `BUF` the bytes stored so far. -/
structure Rx.FrameEq (x y : Rx) : Prop where
  kindR : x.kindR = y.kindR
  lenR : x.lenR = y.lenR
  cnt : x.cnt = y.cnt
  acc : x.acc = y.acc
  csok : x.csok = y.csok
  stored : x.buf.readFirst x.cnt.toNat = y.buf.readFirst y.cnt.toNat

theorem Rx.LiveEq.frameEq_of_payload {x y : Rx} (h : x.LiveEq y) (hs : x.rxs = .payload) : x.FrameEq y := by
  obtain ⟨-, h⟩ := h
  simp only [hs] at h
  obtain ⟨hk, hl, hc, ha, hok, hb⟩ := h
  exact ⟨hk, hl, hc, ha, hok, hb⟩

theorem Rx.LiveEq.frameEq_of_payloadPend {x y : Rx} (h : x.LiveEq y) (hs : x.rxs = .payloadPend) :
    x.FrameEq y ∧ x.pendR = y.pendR := by
  obtain ⟨-, h⟩ := h
  simp only [hs] at h
  obtain ⟨hk, hl, hc, ha, hok, hp, hb⟩ := h
  exact ⟨⟨hk, hl, hc, ha, hok, hb⟩, hp⟩

theorem Rx.LiveEq.frameEq_of_checksum {x y : Rx} (h : x.LiveEq y) (hs : x.rxs = .checksum) : x.FrameEq y := by
  obtain ⟨-, h⟩ := h
  simp only [hs] at h
  obtain ⟨hk, hl, hc, ha, hok, hb⟩ := h
  exact ⟨hk, hl, hc, ha, hok, hb⟩

theorem Rx.LiveEq.frameEq_of_endPos {x y : Rx} (h : x.LiveEq y) (hs : x.rxs = .endPos) : x.FrameEq y := by
  obtain ⟨-, h⟩ := h
  simp only [hs] at h
  obtain ⟨hk, hl, hc, hok, ha, hb⟩ := h
  exact ⟨hk, hl, hc, ha, hok, hb⟩

/-- In PAYLOAD and CHECKSUM the live registers are those of `FrameEq`. -/
theorem Rx.FrameEq.liveEq {x y : Rx} (h : x.FrameEq y) (hs : x.rxs = y.rxs)
    (hpos : x.rxs = .payload ∨ x.rxs = .checksum) : x.LiveEq y := by
  obtain ⟨hk, hl, hc, ha, hok, hb⟩ := h
  refine ⟨hs, ?_⟩
  rcases hpos with hx | hx <;> simp only [hx] <;> exact ⟨hk, hl, hc, ha, hok, hb⟩

/-- Reading one entry past the first `n`, right after a put at `n`. -/
theorem Memory.readFirst_put_self (m : Memory) (n : Nat) (v : Byte) :
    (m.put n v).readFirst (n + 1) = (m.readFirst n).map (· ++ [v]) := by
  simp only [Memory.readFirst, Memory.readFirst_put_of_le m v (le_refl n), Memory.get_put_same]
  cases m.readFirst n <;> rfl

theorem byte_succ_of_lt_bufSize {a : Byte} (h : a.toNat < bufSize) : (a + 1#8).toNat = a.toNat + 1 := by
  simp only [bufSize] at h
  bv_omega

/-- The bytes stored so far, after one store more. -/
theorem Rx.readFirst_stored (cfg : Cfg) (b : Byte) {x : Rx} (hc : x.cnt.toNat < bufSize) :
    (x.stored cfg b).buf.readFirst (x.stored cfg b).cnt.toNat = (x.buf.readFirst x.cnt.toNat).map (· ++ [b]) := by
  have hcnt : (x.stored cfg b).cnt.toNat = x.cnt.toNat + 1 := byte_succ_of_lt_bufSize hc
  rw [hcnt]
  exact Memory.readFirst_put_self _ _ _

/-- R126, R128: storing the same byte keeps the agreement. -/
theorem Rx.FrameEq.stored_liveEq {x y : Rx} (h : x.FrameEq y) (cfg : Cfg) (b : Byte) (hc : x.cnt.toNat < bufSize) :
    (x.stored cfg b).LiveEq (y.stored cfg b) := by
  have hbuf : (x.stored cfg b).buf.readFirst (x.stored cfg b).cnt.toNat
      = (y.stored cfg b).buf.readFirst (y.stored cfg b).cnt.toNat := by
    rw [Rx.readFirst_stored cfg b hc, Rx.readFirst_stored cfg b (h.cnt ▸ hc), h.stored]
  have hframe : (x.stored cfg b).FrameEq (y.stored cfg b) :=
    ⟨h.kindR, h.lenR, by simp [Rx.stored, h.cnt], by simp [Rx.stored, h.acc], h.csok, hbuf⟩
  refine hframe.liveEq (by simp [Rx.stored, h.cnt, h.lenR]) ?_
  by_cases he : x.cnt + 1#8 = x.lenR
  · exact .inr (by simp [Rx.stored, he])
  · exact .inl (by simp [Rx.stored, he])

/-! ### The simulation -/

/-- R33: a rule that applies to `x` applies to every register set that agrees with it on the live registers, with the
same event, and leaves live registers that agree. That `x` meets R32 is needed at the verdict alone, which reads `LEN_R`
entries of `BUF` where `CNT` are known to agree. -/
theorem RxRule.simulate {cfg : Cfg} {x y x' : Rx} {b : Byte} {ev : Event} (hi : x.Inv cfg) (hl : x.LiveEq y)
    (h : RxRule cfg x b x' ev) : ∃ y', RxRule cfg y b y' ev ∧ x'.LiveEq y' := by
  obtain ⟨hrxs, hlive⟩ := id hl
  have idle : Rx.LiveEq x.idled y.idled := ⟨rfl, trivial⟩
  have begun : Rx.LiveEq x.begun y.begun := ⟨rfl, rfl, rfl, rfl⟩
  cases h with
  | r111_discard hs hb => exact ⟨y, .r111_discard (hrxs ▸ hs) hb, hl⟩
  | r112_begin hs hb => exact ⟨_, .r112_begin (hrxs ▸ hs) hb, begun⟩
  | r114_startForKind hs hb => exact ⟨_, .r114_startForKind (hrxs ▸ hs) hb, begun⟩
  | r115_endForKind hs hb => exact ⟨_, .r115_endForKind (hrxs ▸ hs) hb, idle⟩
  | r116_latchKind hs hb =>
    simp only [hs] at hlive
    obtain ⟨hc, -, hok⟩ := hlive
    exact ⟨_, .r116_latchKind (hrxs ▸ hs) hb, rfl, rfl, hc, rfl, hok⟩
  | r120_latchEmptyLength hs hb =>
    simp only [hs] at hlive
    obtain ⟨hk, -, ha, hok⟩ := hlive
    exact ⟨_, .r120_latchEmptyLength (hrxs ▸ hs) hb, rfl, hk, rfl, rfl, congrArg (cfg.csStep · b) ha, hok, rfl⟩
  | r120_latchLength hs hb =>
    simp only [hs] at hlive
    obtain ⟨hk, -, ha, hok⟩ := hlive
    exact ⟨_, .r120_latchLength (hrxs ▸ hs) hb, rfl, hk, rfl, rfl, congrArg (cfg.csStep · b) ha, hok, rfl⟩
  | r124_hold hs hb =>
    obtain ⟨hk, hn, hc, ha, hok, hbuf⟩ := hl.frameEq_of_payload hs
    exact ⟨_, .r124_hold (hrxs ▸ hs) hb, rfl, hk, hn, hc, ha, hok, rfl, hbuf⟩
  | r126_store hs hb hc =>
    have hf := hl.frameEq_of_payload hs
    exact ⟨_, .r126_store (hrxs ▸ hs) hb (hf.cnt ▸ hc), hf.stored_liveEq cfg b hc⟩
  | r128_doubled hs hp hb hc =>
    obtain ⟨hf, hpe⟩ := hl.frameEq_of_payloadPend hs
    exact ⟨_, .r128_doubled (hrxs ▸ hs) (hpe ▸ hp) (hpe ▸ hb) (hf.cnt ▸ hc), hf.stored_liveEq cfg b hc⟩
  | r130_endThenOrdinary hs hp hb =>
    obtain ⟨-, hpe⟩ := hl.frameEq_of_payloadPend hs
    exact ⟨_, .r130_endThenOrdinary (hrxs ▸ hs) (hpe ▸ hp) hb, idle⟩
  | r131_endThenStart hs hp hb =>
    obtain ⟨-, hpe⟩ := hl.frameEq_of_payloadPend hs
    exact ⟨_, .r131_endThenStart (hrxs ▸ hs) (hpe ▸ hp) hb, begun⟩
  | r133_startThenOrdinary hs hp hb =>
    obtain ⟨-, hpe⟩ := hl.frameEq_of_payloadPend hs
    exact ⟨_, .r133_startThenOrdinary (hrxs ▸ hs) (hpe ▸ hp) hb, rfl, rfl, rfl, rfl, rfl⟩
  | r135_startThenEnd hs hp hb =>
    obtain ⟨-, hpe⟩ := hl.frameEq_of_payloadPend hs
    exact ⟨_, .r135_startThenEnd (hrxs ▸ hs) (hpe ▸ hp) hb, idle⟩
  | r140_compare hs =>
    obtain ⟨hk, hn, hc, ha, -, hbuf⟩ := hl.frameEq_of_checksum hs
    exact ⟨_, .r140_compare (hrxs ▸ hs), rfl, hk, hn, hc, congrArg (b == ·) ha, ha, hbuf⟩
  | r150_badChecksum hs hb hok =>
    have hf := hl.frameEq_of_endPos hs
    exact ⟨_, .r150_badChecksum (hrxs ▸ hs) hb (hf.csok ▸ hok), idle⟩
  | r150_unknownKind hs hb hok hk =>
    have hf := hl.frameEq_of_endPos hs
    exact ⟨_, .r150_unknownKind (hrxs ▸ hs) hb (hf.csok ▸ hok) (hf.kindR ▸ hk), idle⟩
  | r150_frame p hs hb hok hk hp =>
    have hf := hl.frameEq_of_endPos hs
    obtain ⟨-, hcons⟩ := hi
    simp only [Rx.Consistent, hs] at hcons
    obtain ⟨hcnt, -⟩ := hcons
    have hpy : y.buf.readFirst y.lenR.toNat = some p := by
      rw [← hf.lenR, ← hcnt, hf.cnt, ← hf.stored, hcnt, hp]
    rw [hf.kindR] at hk ⊢
    exact ⟨_, .r150_frame p (hrxs ▸ hs) hb (hf.csok ▸ hok) hk hpy, idle⟩
  | r151_startForEnd hs hb => exact ⟨_, .r151_startForEnd (hrxs ▸ hs) hb, begun⟩
  | r153_otherForEnd hs hb => exact ⟨_, .r153_otherForEnd (hrxs ▸ hs) hb, idle⟩

/-- R33 along a run: only the set that is known to run need be consistent. -/
theorem rxRun_simulate {cfg : Cfg} (hv : cfg.Valid) {x y x' : Rx} {bs : List Byte} {evs : List Event} (hx : x.Inv cfg)
    (hl : x.LiveEq y) (hrun : rxRun cfg x bs = .ok (x', evs)) :
    ∃ y', rxRun cfg y bs = .ok (y', evs) ∧ x'.LiveEq y' := by
  induction bs generalizing x y evs with
  | nil =>
    cases hrun
    exact ⟨y, rxRun_nil cfg y, hl⟩
  | cons b bs ih =>
    obtain ⟨x₁, ev, evs', hstep, hrest, rfl⟩ := rxRun_cons_ok hrun
    obtain ⟨y₁, hrule, hl₁⟩ := (rxStep_rule hstep).simulate hx hl
    obtain ⟨y', hrun', hl'⟩ := ih (rxStep_inv hx hstep) hl₁ hrest
    exact ⟨y', rxRun_cons (rxStep_of_rule hv hrule) hrun', hl'⟩

/-- Settles O49: `rxRun_simulate`, an induction on the bytes over the simulation of one rule. -/
theorem deadRegistersDoNotMatter : Obligations.DeadRegistersDoNotMatter := by
  unfold Obligations.DeadRegistersDoNotMatter
  intro cfg x y x' bs evs hv hx _ hl hrun
  exact rxRun_simulate hv hx hl hrun

end Sys2Proof.Machine
end

section
/-! SUPPORT. Accesses to `BUF` (20_memory.md R54, R58): which rules write it and where, that a step from a consistent state
never faults, and the statement BufferAccessesInRange. -/

namespace Sys2Proof.Machine

open Sys2Proof

/-- R54: a rule leaves `BUF` alone, or is one of the two stores (R126, R128), which put the received byte at `CNT`. -/
theorem RxRule.buf_cases {cfg : Cfg} {rx rx' : Rx} {b : Byte} {ev : Event} (h : RxRule cfg rx b rx' ev) :
    rx'.buf = rx.buf ∨
      (rx.rxs = .payload ∨ rx.rxs = .payloadPend) ∧ rx'.buf = rx.buf.put rx.cnt.toNat b := by
  cases h with
  | r126_store hs => exact .inr ⟨.inl hs, rfl⟩
  | r128_doubled hs => exact .inr ⟨.inr hs, rfl⟩
  | _ => exact .inl rfl

/-- R32: where a store can happen, a payload byte is still owed. -/
theorem Rx.Inv.cnt_lt_lenR {cfg : Cfg} {rx : Rx} (h : rx.Inv cfg) (hs : rx.rxs = .payload ∨ rx.rxs = .payloadPend) :
    rx.cnt < rx.lenR := by
  obtain ⟨-, hcons⟩ := h
  unfold Rx.Consistent at hcons
  rcases hs with hs | hs
  all_goals
    simp only [hs] at hcons
    obtain ⟨hlt, -⟩ := hcons
    exact hlt

/-- R54: an entry of `BUF` that a receive step changes is entry `CNT`, below `LEN_R`, and then holds the received byte. -/
theorem rxStep_buf_changed {cfg : Cfg} {rx rx' : Rx} {b : Byte} {ev : Event} {i : Nat} (hi : rx.Inv cfg)
    (h : rxStep cfg rx b = .ok (rx', ev)) (hne : rx'.buf.get i ≠ rx.buf.get i) :
    i = rx.cnt.toNat ∧ rx.cnt < rx.lenR ∧ rx'.buf.get i = some b := by
  rcases (rxStep_rule h).buf_cases with hbuf | ⟨hs, hbuf⟩
  · exact absurd (by rw [hbuf]) hne
  · have hcnt : i = rx.cnt.toNat := by
      by_contra hne'
      exact hne (by rw [hbuf, Memory.get_put_other _ _ hne'])
    exact ⟨hcnt, hi.cnt_lt_lenR hs, by rw [hbuf, hcnt, Memory.get_put_same]⟩

/-- R225: the engine's receive step does not fault on consistent registers, where `rx_step` answers (`rxStep_total`). -/
theorem engineRx_neverFaults {s : State} (h : s.rx.Inv s.cfg) (b : Byte) : NeverFaults (engineRx b s) := by
  intro f hf
  rcases engineRx_cases b s with ⟨_, _, _, _, he, _⟩ | he | ⟨_, hr, _⟩
  · simp [he] at hf
  · simp [he] at hf
  · obtain ⟨_, _, hok⟩ := rxStep_total h b
    simp [hok] at hr

/-- R171: a send request is carried out or refused. -/
theorem txRequest_neverFaults (k : Byte) (p : List Byte) (s : State) : NeverFaults (txRequest k p s) := by
  intro f
  unfold txRequest
  split <;> simp

/-- R225: no step from a state that meets the invariant faults, whatever the input. -/
theorem step_neverFaults {s : State} (h : s.Inv) : NeverFaults (step s) := by
  obtain ⟨hv, hrx, -⟩ := h
  cases hin : s.inputs with
  | nil => simp [NeverFaults, step_idle hv hin]
  | cons x rest =>
    cases x with
    | rx b =>
      rw [step_rx hv hin]
      exact engineRx_neverFaults (by simpa using hrx) b
    | request k p =>
      rw [step_request hv hin]
      exact txRequest_neverFaults k p _
    | reset => simp [NeverFaults, step_reset hv hin]

/-- Settles O48: of the inputs that are no reset only a received byte writes `BUF`, as `rxStep_buf_changed` says; an
access out of range would be a fault, which `step_neverFaults` rules out. -/
theorem bufferAccessesInRange : Obligations.BufferAccessesInRange := by
  unfold Obligations.BufferAccessesInRange
  refine ⟨fun s t i hinv hnr h hne => ?_, fun s hinv => step_neverFaults hinv _⟩
  obtain ⟨-, hrx, -⟩ := hinv
  obtain ⟨-, hst⟩ := step_cases h
  cases hst with
  | idle => exact absurd rfl hne
  | received b rest rx' ev _ hin hr ht =>
    obtain ⟨-, htrx, -, -, -⟩ := ht.frame
    rw [htrx] at hne ⊢
    obtain ⟨hcnt, hlt, hget⟩ := rxStep_buf_changed hrx hr hne
    have hindex : i < 255 := hcnt ▸ byte_lt_bufSize hlt
    exact ⟨hcnt, hlt, by omega, b, rest, hin, hget⟩
  | requested => exact absurd rfl hne
  | wasReset rest hin => exact absurd hin (hnr rest)

end Sys2Proof.Machine
end

section
/-! SUPPORT. The codec as a whole (30_encoding.md R70, R74, R89, R93, R94, R97; 41_tx_encode.md R160): what the decoder
answers on an encoded frame, everything it can answer at all, the length of a frame and the laws of the checksum. The
statements DecodeOfEncode, EncodeOfDecode, FrameLength, ChecksumOrderAndSensitivity and WrittenOutWordsDecode. -/

namespace Sys2Proof

/-! ### Decoding an encoded frame -/

/-- The answer of the decoder on an intact frame: its typed instruction (R96), or that the KIND is of neither enumeration. -/
def typedResult (cfg : Cfg) (k : Byte) (p : List Byte) : Except DecodeError Instr :=
  (typeFrame cfg k p).elim (.error .unknownKind) .ok

theorem typedResult_eq_ok {cfg : Cfg} {k : Byte} {p : List Byte} {i : Instr} :
    typedResult cfg k p = .ok i ↔ typeFrame cfg k p = some i := by
  unfold typedResult
  cases typeFrame cfg k p <;> simp

/-- R70, R71: behind START and an ordinary KIND byte the decoder reads LENGTH and then the body. -/
theorem decode_of_head {cfg : Cfg} {k : Byte} (hk : cfg.isSentinel k = false) (l : Byte) (bs : List Byte) :
    decode cfg (cfg.startByte :: k :: l :: bs) = decodeBody cfg k l bs := by
  simp [decode, Cfg.classify_eq_ordinary.2 hk]

/-- R89, R93: the body of an encoded frame de-escapes to its payload, with CHECKSUM and END as they must be. -/
theorem decodeBody_of_escape (cfg : Cfg) (k : Byte) {p : List Byte} (hp : PayloadFits p) :
    decodeBody cfg k (BitVec.ofNat 8 p.length) (cfg.escape p ++ [cfg.cs k (BitVec.ofNat 8 p.length) p, cfg.endByte])
      = typedResult cfg k p := by
  unfold decodeBody typedResult
  rw [toNat_length hp, unescape_escape]
  cases hi : typeFrame cfg k p <;> simp [hi]

/-- R97: the decoder reads the kind byte and the payload of an encoded frame back. -/
theorem decode_encodeFrame {cfg : Cfg} {k : Byte} {p : List Byte} (hk : cfg.isSentinel k = false) (hp : PayloadFits p) :
    decode cfg (encodeFrame cfg k p) = typedResult cfg k p :=
  (decode_of_head hk _ _).trans (decodeBody_of_escape cfg k hp)

theorem decode_startByte (cfg : Cfg) : decode cfg [cfg.startByte] = .ok .startByte := by
  simp only [decode, Cfg.classify_start]

theorem decode_endByte {cfg : Cfg} (hv : cfg.Valid) : decode cfg [cfg.endByte] = .ok .endByte := by
  simp only [decode, Cfg.classify_end hv]

/-- Settles O7: a Message and a Command by the frame they are sent as (`decode_encodeFrame`), which types back to them; a
sentinel is its own byte. -/
theorem decodeOfEncode : Obligations.DecodeOfEncode := by
  unfold Obligations.DecodeOfEncode
  intro cfg i hv hwf
  rcases i.cases_typed with ⟨m, rfl⟩ | ⟨c, rfl⟩ | rfl | rfl
  · have hp : PayloadFits m.payload := by simpa using hwf
    rw [encode_message, decode_encodeFrame (Cfg.msgCode_ordinary hv _) hp]
    exact typedResult_eq_ok.2 (typeFrame_msgCode hv _ _)
  · have hp : PayloadFits c.args := by simpa using hwf
    rw [encode_command, decode_encodeFrame (Cfg.cmdCode_ordinary hv _) hp]
    exact typedResult_eq_ok.2 (typeFrame_cmdCode hv _ _)
  · exact decode_startByte cfg
  · exact decode_endByte hv

/-! ### Everything the decoder accepts -/

/-- R70, R89: a body that decodes is the escaped payload of LENGTH bytes, its CHECKSUM and END, and nothing more. -/
theorem decodeBody_eq_ok {cfg : Cfg} {k l : Byte} {bs : List Byte} {i : Instr} (h : decodeBody cfg k l bs = .ok i) :
    ∃ p, p.length = l.toNat ∧ bs = cfg.escape p ++ [cfg.cs k l p, cfg.endByte] ∧ typeFrame cfg k p = some i := by
  unfold decodeBody at h
  split at h
  case h_1 | h_3 => cases h
  case h_2 p c e rest hu =>
    obtain ⟨hlen, hbs⟩ := unescape_eq_ok hu
    split_ifs at h with he hc hrest
    · split at h
      case h_1 => cases h
      case h_2 j hj =>
        cases h
        rw [not_not.1 he, not_not.1 hc, hrest] at hbs
        exact ⟨p, hlen, hbs, hj⟩
    · split at h <;> cases h

/-- What a byte sequence that decodes is: a sentinel alone, or the frame of a payload that fits LENGTH. -/
inductive Decoded (cfg : Cfg) : List Byte → Instr → Prop where
  | startByte : Decoded cfg [cfg.startByte] .startByte
  | endByte : Decoded cfg [cfg.endByte] .endByte
  | frame {k : Byte} {p : List Byte} {i : Instr} (hp : PayloadFits p) (hi : typeFrame cfg k p = some i) :
      Decoded cfg (encodeFrame cfg k p) i

/-- R70, R73: START, KIND and LENGTH before a body that decodes make the frame of the body's payload. -/
theorem decoded_of_decodeBody {cfg : Cfg} {k l : Byte} {bs : List Byte} {i : Instr} (h : decodeBody cfg k l bs = .ok i) :
    Decoded cfg (cfg.startByte :: k :: l :: bs) i := by
  obtain ⟨p, hlen, rfl, hi⟩ := decodeBody_eq_ok h
  have hl : l = BitVec.ofNat 8 p.length := by simp [hlen]
  have hp : PayloadFits p := by
    have := l.isLt
    show p.length ≤ 255
    omega
  subst hl
  exact .frame hp hi

/-- Everything the decoder can answer, along its own cases. -/
theorem decoded_of_decode {cfg : Cfg} {bs : List Byte} {i : Instr} (h : decode cfg bs = .ok i) : Decoded cfg bs i := by
  unfold decode at h
  split at h
  case h_1 => cases h
  case h_2 b =>
    split at h
    case h_1 hb =>
      cases h
      rw [Cfg.classify_eq_start.1 hb]
      exact .startByte
    case h_2 hb =>
      cases h
      rw [Cfg.classify_eq_stop hb]
      exact .endByte
    case h_3 => cases h
  case h_3 b k bs =>
    split_ifs at h with hb
    split at h
    case h_1 | h_2 => cases h
    case h_3 =>
      split at h
      case h_1 => cases h
      case h_2 l bs =>
        rw [not_not.1 hb]
        exact decoded_of_decodeBody h

/-- R96: the instruction that a frame types to is sent as that frame, and its operand is the frame's payload. -/
theorem encode_of_typeFrame {cfg : Cfg} {k : Byte} {p : List Byte} {i : Instr} (h : typeFrame cfg k p = some i) :
    i.payload = p ∧ encode cfg i = encodeFrame cfg k p := by
  rcases typeFrame_eq_some h with ⟨c, rfl, rfl⟩ | ⟨m, rfl, rfl⟩
  · exact ⟨Command.payload_toInstr _, encode_command _ _⟩
  · exact ⟨Message.payload_toInstr _, encode_message _ _⟩

/-- Settles O8: what decodes is a sentinel alone or an encoded frame (`decoded_of_decode`, by the inversion of
de-escaping). -/
theorem encodeOfDecode : Obligations.EncodeOfDecode := by
  unfold Obligations.EncodeOfDecode
  intro cfg bs i _ h
  cases decoded_of_decode h with
  | startByte => exact ⟨Nat.zero_le _, rfl⟩
  | endByte => exact ⟨Nat.zero_le _, rfl⟩
  | frame hp hi =>
    obtain ⟨rfl, henc⟩ := encode_of_typeFrame hi
    exact ⟨hp, henc⟩

/-! ### The length of a frame -/

/-- R74: the `s` of the model counts the bytes that equal one of the two sentinels. -/
theorem Cfg.sentinelCount_eq_length_filter (cfg : Cfg) (p : List Byte) :
    cfg.sentinelCount p = (p.filter fun b => b = cfg.startByte ∨ b = cfg.endByte).length := by
  rw [Cfg.sentinelCount, List.countP_eq_length_filter]
  congr 2
  funext b
  exact Bool.eq_iff_iff.2 (by simp [Cfg.isSentinel_iff])

/-- R74: a payload of sentinels only has `s = L`. -/
theorem Cfg.sentinelCount_of_all {cfg : Cfg} {p : List Byte} (h : ∀ b ∈ p, b = cfg.startByte ∨ b = cfg.endByte) :
    cfg.sentinelCount p = p.length :=
  List.countP_eq_length.2 fun b hb => Cfg.isSentinel_iff.2 (h b hb)

/-- Settles O9: five fixed bytes and the `L + s` of the escaped payload (`length_encodeFrame`), where `s` is at most `L`. -/
theorem frameLength : Obligations.FrameLength := by
  unfold Obligations.FrameLength
  refine fun cfg k p => ⟨?_, encodeFrame_bounds cfg k, by simp, fun hall hlen => ?_⟩
  · rw [length_encodeFrame, Cfg.sentinelCount_eq_length_filter]
  · rw [length_encodeFrame, Cfg.sentinelCount_of_all hall, hlen]

/-! ### The checksum -/

/-- R93: the checksum folds the payload onto the two header bytes. -/
theorem Cfg.cs_eq_foldl (cfg : Cfg) (k l : Byte) (p : List Byte) :
    cfg.cs k l p = p.foldl cfg.csStep (cfg.csStep (cfg.csStep 0#8 k) l) := rfl

/-- R94(a): the checksum of a permuted payload. -/
theorem Cfg.cs_perm (cfg : Cfg) (k l : Byte) {p q : List Byte} (h : p.Perm q) : cfg.cs k l p = cfg.cs k l q := by
  have : RightCommutative cfg.csStep := ⟨cfg.csStep_right_comm⟩
  exact h.foldl_eq _

/-- R94(b): the checksum tells the values of one payload byte apart. -/
theorem Cfg.cs_injective_payload (cfg : Cfg) {k l a b : Byte} {xs ys : List Byte}
    (h : cfg.cs k l (xs ++ [a] ++ ys) = cfg.cs k l (xs ++ [b] ++ ys)) : a = b := by
  simp only [Cfg.cs_eq_foldl, List.foldl_append, List.foldl_cons, List.foldl_nil] at h
  exact cfg.csStep_injective (cfg.foldl_csStep_injective ys h)

/-- R94(b): the checksum tells the KIND bytes apart. -/
theorem Cfg.cs_injective_kind (cfg : Cfg) {k k' l : Byte} {p : List Byte} (h : cfg.cs k l p = cfg.cs k' l p) : k = k' :=
  cfg.csStep_injective (cfg.csStep_injective_left (cfg.foldl_csStep_injective p h))

/-- R94(b): the checksum tells the LENGTH bytes apart. -/
theorem Cfg.cs_injective_length (cfg : Cfg) {k l l' : Byte} {p : List Byte} (h : cfg.cs k l p = cfg.cs k l' p) : l = l' :=
  cfg.csStep_injective (cfg.foldl_csStep_injective p h)

/-- Settles O11: the checksum step commutes (`Cfg.cs_perm`) and loses nothing of either argument, so that the checksum is
injective in each covered byte. -/
theorem checksumOrderAndSensitivity : Obligations.ChecksumOrderAndSensitivity := by
  unfold Obligations.ChecksumOrderAndSensitivity
  refine fun cfg k l p => ⟨fun q => cfg.cs_perm k l, ?payload, fun k' hk h => hk (cfg.cs_injective_kind h),
    fun l' hl h => hl (cfg.cs_injective_length h)⟩
  case payload =>
    rintro xs ys a b rfl hab h
    exact hab (cfg.cs_injective_payload h)

/-! ### The table's words, in the reference configuration (R99) -/

theorem Cfg.reference_valid : Cfg.reference.Valid := by decide

/-- A table word that is an instruction is the one its wire bytes decode to. -/
theorem decode_of_decodeTableWord {n w : Nat} {i : Instr} (h : decodeTableWord n w = some i) :
    decode Cfg.reference (tableWordBytes Cfg.reference w) = .ok i := by
  unfold decodeTableWord at h
  split_ifs at h
  split at h
  case h_1 hd => rw [hd, Option.some.inj h]
  case h_2 => cases h

/-- Settles O5: the decoder evaluated on the four table words and the two frames of 95_test_vectors.md 2.3. -/
theorem writtenOutWordsDecode : Obligations.WrittenOutWordsDecode := by
  unfold Obligations.WrittenOutWordsDecode
  decide

end Sys2Proof
end

section
/-! SUPPORT. The placing of a table word (log entry 12): the next byte received runs the instruction the decoder reads from
the word's bytes, in every valid configuration. The statement TableWordIsFetchedAndRun. -/

namespace Sys2Proof.Machine

open Sys2Proof

/-! ### The state with a word placed -/

@[simp] theorem placeWord_cfg (s : State) (w : Nat) : (placeWord s w).cfg = s.cfg := by
  simp only [placeWord]
  split <;> rfl

section Sentinel

variable {s : State} {w : Nat} (h : s.cfg.isSentinel (BitVec.ofNat 8 w) = true)
include h

theorem placeWord_inputs_of_sentinel : (placeWord s w).inputs = .rx (BitVec.ofNat 8 w) :: s.inputs := by
  simp [placeWord, h]

theorem placeWord_rx_of_sentinel : (placeWord s w).rx =
    if s.rx.missesSentinelRow s.cfg (BitVec.ofNat 8 w) then s.rx.resync else s.rx := by
  simp only [placeWord, h, if_true]

end Sentinel

section Ordinary

variable {s : State} {w : Nat} (h : s.cfg.isSentinel (BitVec.ofNat 8 w) = false)
include h

theorem placeWord_inputs_of_ordinary : (placeWord s w).inputs = .rx s.cfg.endByte :: s.inputs := by
  simp [placeWord, h]

theorem placeWord_rx_of_ordinary : (placeWord s w).rx = s.rx.atEmptyVerdict s.cfg (BitVec.ofNat 8 w) := by
  simp [placeWord, h]

end Ordinary

/-- The decoder at an empty verdict holds the frame of its KIND byte and no payload. -/
theorem Rx.frameInstr_atEmptyVerdict (cfg cfg' : Cfg) (k : Byte) (rx : Rx) :
    (rx.atEmptyVerdict cfg' k).frameInstr cfg = typeFrame cfg k [] :=
  Rx.frameInstr_of_framePayload (Memory.readFirst_zero _)

/-! ### What the placed word runs -/

/-- R99: a placed SENTINEL word is received where it is matched as a sentinel and ends no frame. -/
theorem fetch_placeWord_of_sentinel {s : State} {w : Nat} (hv : s.cfg.Valid)
    (h : s.cfg.isSentinel (BitVec.ofNat 8 w) = true) :
    (BitVec.ofNat 8 w = s.cfg.startByte → fetch (placeWord s w) = some .startByte) ∧
      (BitVec.ofNat 8 w = s.cfg.endByte → fetch (placeWord s w) = some .endByte) := by
  obtain ⟨hsens, hend⟩ := Rx.placed_runs_row s.cfg (BitVec.ofNat 8 w) s.rx
  rw [← placeWord_rx_of_sentinel h] at hsens hend
  rw [fetch_of_rx (placeWord_inputs_of_sentinel h)]
  refine ⟨fun hb => ?_, fun hb => ?_⟩ <;> rw [hb, ← placeWord_cfg s w]
  · exact instrAt_startByte hsens
  · exact instrAt_endByte (by simpa using hv) hsens fun hne => hend hb hne.1

/-- R150, log entry 13: a placed KIND word is received as the END of its empty frame. -/
theorem fetch_placeWord_of_ordinary {s : State} {w : Nat} {i : Instr} (hv : s.cfg.Valid)
    (h : s.cfg.isSentinel (BitVec.ofNat 8 w) = false) (hi : typeFrame s.cfg (BitVec.ofNat 8 w) [] = some i) :
    fetch (placeWord s w) = some i := by
  have hrx := placeWord_rx_of_ordinary h
  rw [fetch_of_rx (placeWord_inputs_of_ordinary h), ← placeWord_cfg s w]
  apply instrAt_endByte_of_frame (by simpa using hv) <;> rw [hrx]
  · rfl
  · rfl
  · rw [placeWord_cfg, Rx.frameInstr_atEmptyVerdict, hi]

/-- R99: in every valid configuration a placed word that decodes is what the next byte runs. -/
theorem fetch_placeWord {s : State} {w : Nat} {i : Instr} (hv : s.cfg.Valid)
    (h : decode s.cfg (tableWordBytes s.cfg w) = .ok i) : fetch (placeWord s w) = some i := by
  unfold tableWordBytes at h
  split_ifs at h with hs
  · obtain ⟨hstart, hend⟩ := fetch_placeWord_of_sentinel hv hs
    rcases Cfg.isSentinel_iff.1 hs with hb | hb
    · rw [hb, decode_startByte] at h
      cases h
      exact hstart hb
    · rw [hb, decode_endByte hv] at h
      cases h
      exact hend hb
  · have hord : s.cfg.isSentinel (BitVec.ofNat 8 w) = false := by simpa using hs
    rw [decode_encodeFrame hord (Nat.zero_le _)] at h
    exact fetch_placeWord_of_ordinary hv hord (typedResult_eq_ok.1 h)

/-- Settles O6: the word is fetched by `fetch_placeWord`, in the reference configuration of the table, and a step runs what
it fetches. -/
theorem tableWordIsFetchedAndRun : Obligations.TableWordIsFetchedAndRun := by
  unfold Obligations.TableWordIsFetchedAndRun
  intro s w i hcfg hw
  have hv : s.cfg.Valid := hcfg ▸ Cfg.reference_valid
  have hf : fetch (placeWord s w) = some i := fetch_placeWord hv (hcfg ▸ decode_of_decodeTableWord hw)
  have hvp : (placeWord s w).cfg.Valid := by simpa using hv
  exact ⟨hf, step_of_fetch hvp hf⟩

end Sys2Proof.Machine
end

section
/-! SUPPORT. Whole frames through the byte-serial decoder (40_rx_decode.md R150, R156, R158, R159): what the decoder answers
on a frame with any CHECKSUM byte, over garbage, behind the synchronising word, and grouped into polls and calls. The
statements RoundTrip, WrongChecksumIsNeverAFrame, ResyncOverGarbage, SynchronisingWord and GroupingIndependence. -/

namespace Sys2Proof.Machine

open Sys2Proof

/-! ### One frame -/

/-- R150: the event at END of a frame that is intact but for a CHECKSUM byte `c`, in the verdict's order. -/
def closingEvent (cfg : Cfg) (k c : Byte) (p : List Byte) : Event :=
  if c ≠ cfg.cs k (BitVec.ofNat 8 p.length) p then .malformed .badChecksum
  else if k ∈ cfg.rxKinds then .frame k p
  else .malformed .unknownKind

/-- R150: END, received where a frame's END is due, gives the frame's closing event. -/
theorem rxStep_closes {cfg : Cfg} {rx : Rx} {k c : Byte} {p : List Byte} (hv : cfg.Valid) (hs : rx.rxs = .endPos)
    (hk : rx.kindR = k) (hp : rx.framePayload = some p) (hok : rx.csok = (c == cfg.cs k (BitVec.ofNat 8 p.length) p)) :
    rxStep cfg rx cfg.endByte = .ok (rx.idled, closingEvent cfg k c p) := by
  subst hk
  unfold closingEvent
  split_ifs with hc hin
  · exact rxStep_of_rule hv (.r150_badChecksum hs rfl (by simpa [hok] using hc))
  · exact rxStep_of_rule hv (.r150_frame p hs rfl (by simpa [hok] using hc) hin hp)
  · exact rxStep_of_rule hv (.r150_unknownKind hs rfl (by simpa [hok] using hc) hin)

/-- R158: a frame that is intact but for its CHECKSUM byte decides at its last byte only, and is left for
`AwaitingStart`. -/
theorem rxRun_closes {cfg : Cfg} {rx : Rx} {k c : Byte} {p : List Byte} (hv : cfg.Valid) (hs : rx.rxs = .awaitingStart)
    (hk : cfg.isSentinel k = false) (hp : PayloadFits p) :
    ∃ rx', rxRun cfg rx (frameHead cfg k p ++ [c, cfg.endByte])
        = .ok (rx', List.replicate ((frameHead cfg k p).length + 1) .needMoreData ++ [closingEvent cfg k c p]) ∧
      rx'.rxs = .awaitingStart := by
  obtain ⟨r, hrun, hend, hkind, hpay, hok⟩ := rxRun_toEnd (c := c) hs hk hp
  have hlast := rxRun_cons (rxStep_closes hv hend hkind hpay hok) (rxRun_nil cfg _)
  exact ⟨_, by simpa using rxRun_append hrun hlast, rfl⟩

/-- Settles O50: `rxRun_closes` with the CHECKSUM byte that the encoder computes. -/
theorem roundTrip : Obligations.RoundTrip := by
  unfold Obligations.RoundTrip
  intro cfg rx k p hv hs hk hp
  obtain ⟨rx', hrun, hs'⟩ := rxRun_closes (c := cfg.cs k (BitVec.ofNat 8 p.length) p) hv hs hk hp
  have hlen : (encodeFrame cfg k p).length - 1 = (frameHead cfg k p).length + 1 := by simp [encodeFrame_eq]
  refine ⟨rx', ?_, hs'⟩
  rw [hlen, encodeFrame_eq, hrun]
  simp [closingEvent]

/-- Settles O57: `rxRun_closes` with a CHECKSUM byte for which the closing event is `BadChecksum`. -/
theorem wrongChecksumIsNeverAFrame : Obligations.WrongChecksumIsNeverAFrame := by
  unfold Obligations.WrongChecksumIsNeverAFrame
  intro cfg rx k c p hv hs hk hp hc
  obtain ⟨rx', hrun, hs'⟩ := rxRun_closes (c := c) hv hs hk hp
  refine ⟨rx', _, hrun, ?_, hs'⟩
  rw [decisions_append, decisions_replicate, closingEvent, if_pos hc]
  rfl

/-! ### Good frames, garbage and the synchronising word -/

/-- R7, R8: a kind the receive verdict accepts is no sentinel. -/
theorem Cfg.rxKinds_ordinary {cfg : Cfg} {k : Byte} (hv : cfg.Valid) (hk : k ∈ cfg.rxKinds) :
    cfg.isSentinel k = false := by
  unfold Cfg.rxKinds at hk
  cases hr : cfg.role with
  | device =>
    simp only [hr] at hk
    obtain ⟨c, rfl⟩ := Cfg.mem_cmdCodes.1 hk
    exact Cfg.cmdCode_ordinary hv c
  | host =>
    simp only [hr] at hk
    obtain ⟨m, rfl⟩ := Cfg.mem_msgCodes.1 hk
    exact Cfg.msgCode_ordinary hv m

/-- R158: an encoded frame of an accepted kind decides as that frame and nothing else. -/
theorem rxRun_goodFrame {cfg : Cfg} {rx : Rx} {k : Byte} {p : List Byte} (hv : cfg.Valid) (hs : rx.rxs = .awaitingStart)
    (hk : k ∈ cfg.rxKinds) (hp : PayloadFits p) :
    ∃ rx' evs, rxRun cfg rx (encodeFrame cfg k p) = .ok (rx', evs) ∧ decisions evs = [.frame k p] ∧
      rx'.rxs = .awaitingStart := by
  obtain ⟨rx', hrun, hs'⟩ := roundTrip cfg rx k p hv hs (Cfg.rxKinds_ordinary hv hk) hp
  refine ⟨rx', _, hrun, ?_, hs'⟩
  rw [decisions_append, decisions_replicate, if_pos hk]
  rfl

/-- Settles O55: the two frames by `rxRun_goodFrame`, the bytes between them by `rxRun_garbage`. -/
theorem resyncOverGarbage : Obligations.ResyncOverGarbage := by
  unfold Obligations.ResyncOverGarbage
  intro cfg rx k k' p p' g hv hs hk hk' hp hp' hg
  obtain ⟨r₁, evs₁, hrun₁, hdec₁, hs₁⟩ := rxRun_goodFrame hv hs hk hp
  obtain ⟨r₂, evs₂, hrun₂, hdec₂, -⟩ := rxRun_goodFrame hv hs₁ hk' hp'
  refine ⟨r₂, _, rxRun_append (rxRun_append hrun₁ (rxRun_garbage hs₁ hg)) hrun₂, ?_⟩
  simp [decisions_append, hdec₁, hdec₂]

/-- Where `END, o` of the synchronising word leaves the decoder: out of KIND and LENGTH, with no sentinel held. -/
def Rx.OffHeader (rx : Rx) : Prop :=
  rx.rxs = .awaitingStart ∨ rx.rxs = .payload ∨ rx.rxs = .checksum ∨ rx.rxs = .endPos

/-- The receive positions that an ordinary byte leaves for `AwaitingStart` (R111, R130, R153). -/
def Rx.Closing (cfg : Cfg) (rx : Rx) : Prop :=
  rx.rxs = .awaitingStart ∨ rx.rxs = .endPos ∨ rx.rxs = .payloadPend ∧ rx.pendR = cfg.endByte

/-- R126, R128: after a store the decoder is in PAYLOAD or at CHECKSUM. -/
theorem Rx.stored_offHeader (cfg : Cfg) (b : Byte) (rx : Rx) : (rx.stored cfg b).OffHeader := by
  by_cases h : rx.cnt + 1#8 = rx.lenR <;> simp [Rx.OffHeader, Rx.stored, h]

/-- R159: the first END leads out of the header of a frame, from every receive position. -/
theorem RxRule.end_offHeader {cfg : Cfg} {rx rx' : Rx} {ev : Event} (hv : cfg.Valid)
    (h : RxRule cfg rx cfg.endByte rx' ev) : rx'.OffHeader ∨ rx'.Closing cfg := by
  have hne : cfg.endByte ≠ cfg.startByte := (Cfg.start_ne_end hv).symm
  have hsent := cfg.isSentinel_end
  cases h with
  | r111_discard hs _ => exact .inl (.inl hs)
  | r112_begin _ hb | r114_startForKind _ hb | r131_endThenStart _ _ hb | r151_startForEnd _ hb => exact absurd hb hne
  | r116_latchKind _ hb | r126_store _ hb | r130_endThenOrdinary _ _ hb | r133_startThenOrdinary _ _ hb
  | r153_otherForEnd _ hb => simp [hsent] at hb
  | r115_endForKind | r135_startThenEnd | r150_badChecksum | r150_unknownKind | r150_frame => exact .inl (.inl rfl)
  | r120_latchEmptyLength => exact .inl (.inr (.inr (.inl rfl)))
  | r120_latchLength => exact .inl (.inr (.inl rfl))
  | r124_hold => exact .inr (.inr (.inr ⟨rfl, rfl⟩))
  | r128_doubled => exact .inl (Rx.stored_offHeader cfg _ rx)
  | r140_compare => exact .inr (.inr (.inl rfl))

/-- R159: the second END, with no sentinel held, is held, compared, discarded or taken as an END. -/
theorem RxRule.end_closing {cfg : Cfg} {rx rx' : Rx} {ev : Event} (hv : cfg.Valid)
    (hi : rx.OffHeader) (h : RxRule cfg rx cfg.endByte rx' ev) : rx'.Closing cfg := by
  have hsent := cfg.isSentinel_end
  unfold Rx.OffHeader at hi
  cases h with
  | r111_discard hs _ => exact .inl hs
  | r124_hold => exact .inr (.inr ⟨rfl, rfl⟩)
  | r140_compare => exact .inr (.inl rfl)
  | r150_badChecksum | r150_unknownKind | r150_frame => exact .inl rfl
  | r126_store _ hb | r153_otherForEnd _ hb => simp [hsent] at hb
  | r112_begin _ hb | r151_startForEnd _ hb => exact absurd hb.symm (Cfg.start_ne_end hv)
  | r114_startForKind hs | r115_endForKind hs | r116_latchKind hs | r120_latchEmptyLength hs | r120_latchLength hs
  | r128_doubled hs | r130_endThenOrdinary hs | r131_endThenStart hs | r133_startThenOrdinary hs
  | r135_startThenEnd hs => simp [hs] at hi

/-- R111, R126, R140, R153: an ordinary byte keeps the decoder out of the header when no sentinel is held. -/
theorem RxRule.ordinary_offHeader {cfg : Cfg} {rx rx' : Rx} {o : Byte} {ev : Event} (hi : rx.OffHeader)
    (ho : cfg.isSentinel o = false) (h : RxRule cfg rx o rx' ev) : rx'.OffHeader := by
  unfold Rx.OffHeader at hi
  cases h with
  | r111_discard hs _ => exact .inl hs
  | r126_store => exact Rx.stored_offHeader cfg o rx
  | r140_compare => exact .inr (.inr (.inr rfl))
  | r153_otherForEnd => exact .inl rfl
  | r112_begin _ hb | r151_startForEnd _ hb | r150_badChecksum _ hb | r150_unknownKind _ hb | r150_frame _ _ hb =>
    subst hb
    simp at ho
  | r124_hold _ hb => simp [ho] at hb
  | r114_startForKind hs | r115_endForKind hs | r116_latchKind hs | r120_latchEmptyLength hs | r120_latchLength hs
  | r128_doubled hs | r130_endThenOrdinary hs | r131_endThenStart hs | r133_startThenOrdinary hs
  | r135_startThenEnd hs => simp [hs] at hi

/-- R111, R130, R153: an ordinary byte where a frame is to be closed leaves `AwaitingStart`. -/
theorem rxStep_ordinary_of_closing {cfg : Cfg} {rx : Rx} {o : Byte} (hv : cfg.Valid) (hi : rx.Closing cfg)
    (ho : cfg.isSentinel o = false) : ∃ ev, rxStep cfg rx o = .ok (rx.idled, ev) := by
  rcases hi with hs | hs | ⟨hs, hp⟩
  · have hne : o ≠ cfg.startByte := by
      rintro rfl
      simp at ho
    have hidle : rx.idled = rx := by
      cases rx
      cases hs
      rfl
    rw [hidle]
    exact ⟨_, rxStep_of_rule hv (.r111_discard hs hne)⟩
  · exact ⟨_, rxStep_of_rule hv (.r153_otherForEnd hs ho)⟩
  · exact ⟨_, rxStep_of_rule hv (.r130_endThenOrdinary hs hp ho)⟩

/-- R159: the four bytes of the synchronising word, from every register set that answers to them. -/
theorem rxRun_synchronises {cfg : Cfg} {rx rx' : Rx} {o o' : Byte} {evs : List Event} (hv : cfg.Valid)
    (ho : cfg.isSentinel o = false) (ho' : cfg.isSentinel o' = false)
    (hrun : rxRun cfg rx [cfg.endByte, o, cfg.endByte, o'] = .ok (rx', evs)) : rx'.rxs = .awaitingStart := by
  obtain ⟨r₁, _, _, h₁, hrun, -⟩ := rxRun_cons_ok hrun
  obtain ⟨r₂, _, _, h₂, hrun, -⟩ := rxRun_cons_ok hrun
  obtain ⟨r₃, _, _, h₃, hrun, -⟩ := rxRun_cons_ok hrun
  obtain ⟨r₄, _, _, h₄, hrun, -⟩ := rxRun_cons_ok hrun
  cases hrun
  have hoff : r₂.OffHeader := by
    rcases (rxStep_rule h₁).end_offHeader hv with h | h
    · exact (rxStep_rule h₂).ordinary_offHeader h ho
    · obtain ⟨_, h₂'⟩ := rxStep_ordinary_of_closing hv h ho
      cases h₂.symm.trans h₂'
      exact .inl rfl
  obtain ⟨_, h₄'⟩ := rxStep_ordinary_of_closing hv ((rxStep_rule h₃).end_closing hv hoff) ho'
  cases h₄.symm.trans h₄'
  rfl

/-- Settles O56: consistent registers answer to the word (`rxRun_total`), which leads to `AwaitingStart`. -/
theorem synchronisingWord : Obligations.SynchronisingWord := by
  unfold Obligations.SynchronisingWord
  intro cfg rx o o' k p hv hi ho ho' hk hp
  obtain ⟨rx', evs, hrun, -⟩ := rxRun_total hi [cfg.endByte, o, cfg.endByte, o']
  have hs := rxRun_synchronises hv ho ho' hrun
  obtain ⟨rx'', evs', hrun', hdec, -⟩ := rxRun_goodFrame hv hs hk hp
  exact ⟨rx', evs, rx'', evs', hrun, hs, hrun', hdec⟩

/-! ### Polls and calls (R156) -/

/-- R156: a call decides what the byte steps decide first, and leaves the rest of them to be taken from where it stopped;
it takes at least one byte when there is one. -/
theorem decodeCall_of_rxRun {cfg : Cfg} {rx rx' : Rx} {bs : List Byte} {evs : List Event}
    (h : rxRun cfg rx bs = .ok (rx', evs)) :
    ∃ r ev rest evs', decodeCall cfg rx bs = .ok (r, ev, rest) ∧ rest.length ≤ bs.length - 1 ∧
      rxRun cfg r rest = .ok (rx', evs') ∧ decisions evs = decisions [ev] ++ decisions evs' := by
  induction bs generalizing rx evs with
  | nil =>
    cases h
    exact ⟨_, .needMoreData, [], [], rfl, Nat.zero_le _, rfl, rfl⟩
  | cons b bs ih =>
    obtain ⟨r₁, ev, evs₁, hstep, hrest, rfl⟩ := rxRun_cons_ok h
    cases ev with
    | needMoreData =>
      obtain ⟨r, ev, rest, evs', hcall, hlen, hrun, hdec⟩ := ih hrest
      refine ⟨r, ev, rest, evs', by simp only [decodeCall, hstep, hcall], ?_, hrun, hdec⟩
      simp only [List.length_cons]
      omega
    | frame | malformed =>
      exact ⟨r₁, _, bs, evs₁, by simp only [decodeCall, hstep], le_refl _, hrest, decisions_append [_] evs₁⟩

/-- R156: as many calls as there are bytes take them all and decide what the byte steps decide. -/
theorem decodeCalls_of_rxRun {cfg : Cfg} {rx rx' : Rx} {bs : List Byte} {evs : List Event} {n : Nat}
    (hn : bs.length ≤ n) (h : rxRun cfg rx bs = .ok (rx', evs)) :
    decodeCalls cfg n rx bs = .ok (rx', decisions evs) := by
  induction n generalizing rx bs evs with
  | zero =>
    cases List.length_eq_zero_iff.1 (Nat.le_zero.1 hn)
    cases h
    rfl
  | succ n ih =>
    cases bs with
    | nil =>
      cases h
      rfl
    | cons b bs =>
      obtain ⟨r, ev, rest, evs', hcall, hlen, hrun, hdec⟩ := decodeCall_of_rxRun h
      simp only [List.length_cons] at hn hlen
      simp only [decodeCalls, hcall, ih (by omega) hrun, hdec]

/-- Settles O53: by induction on the polls, each taken whole by `decodeCalls_of_rxRun`. -/
theorem groupingIndependence : Obligations.GroupingIndependence := by
  unfold Obligations.GroupingIndependence
  intro cfg rx polls _ hi
  induction polls generalizing rx with
  | nil => exact ⟨rx, [], rfl, rfl⟩
  | cons bs polls ih =>
    obtain ⟨r, evs, hrun, hr⟩ := rxRun_total hi bs
    obtain ⟨rx', evs', hrun', hpolls⟩ := ih r hr
    refine ⟨rx', evs ++ evs', rxRun_append hrun hrun', ?_⟩
    simp only [decodePolls, decodeCalls_of_rxRun (le_refl _) hrun, hpolls, decisions_append]

end Sys2Proof.Machine
end

section
/-! SUPPORT. The receive rules one by one (40_rx_decode.md R110 to R155): what the engine does with the answer of the receive
step, said once for each event, and the statements that read it off at each rule, from ExactlyOneReceiveRule to MissingEnd.
-/

namespace Sys2Proof.Machine

open Sys2Proof

/-! ### The rules as a whole (R110, R155) -/

/-- Settles O12: the step answers (`rxStep_total`) by a rule (`rxStep_rule`); two rules that apply both are what the step
does (`rxStep_of_rule`). -/
theorem exactlyOneReceiveRule : Obligations.ExactlyOneReceiveRule := by
  unfold Obligations.ExactlyOneReceiveRule
  intro cfg rx b hv hi
  obtain ⟨rx', ev, hstep⟩ := rxStep_total hi b
  refine ⟨rx', ev, hstep, rxStep_rule hstep, fun rx'' ev'' hrule => ?_⟩
  cases hstep.symm.trans (rxStep_of_rule hv hrule)
  exact ⟨rfl, rfl⟩

/-- R13: a byte that is not START is END or ordinary. -/
theorem Cfg.end_or_ordinary {cfg : Cfg} {b : Byte} (h : b ≠ cfg.startByte) :
    b = cfg.endByte ∨ cfg.isSentinel b = false := by
  by_cases he : b = cfg.endByte
  · exact .inl he
  · exact .inr (by simp [Cfg.isSentinel, h, he])

/-- R13: a byte that is not END is START or ordinary. -/
theorem Cfg.start_or_ordinary {cfg : Cfg} {b : Byte} (h : b ≠ cfg.endByte) :
    b = cfg.startByte ∨ cfg.isSentinel b = false := by
  by_cases hs : b = cfg.startByte
  · exact .inl hs
  · exact .inr (by simp [Cfg.isSentinel, h, hs])

/-- R13: an ordinary byte is neither sentinel. -/
theorem Cfg.ne_of_ordinary {cfg : Cfg} {b : Byte} (h : cfg.isSentinel b = false) :
    b ≠ cfg.startByte ∧ b ≠ cfg.endByte := by
  simpa [Cfg.isSentinel] using h

/-- R155, one direction: a rule that raises a reason stands in that reason's row. -/
theorem RxRule.malformedCause {cfg : Cfg} {rx rx' : Rx} {b : Byte} {r : Reason} (hv : cfg.Valid)
    (h : RxRule cfg rx b rx' (.malformed r)) : MalformedCause cfg rx b r := by
  have hne := Cfg.start_ne_end hv
  cases h with
  | r114_startForKind hs hb => exact .inl ⟨hs, hb⟩
  | r115_endForKind hs hb => exact .inl ⟨hs, hb⟩
  | r130_endThenOrdinary hs hp hb => exact .inr ⟨hs, hp, (Cfg.ne_of_ordinary hb).2⟩
  | r131_endThenStart hs hp hb => exact .inr ⟨hs, hp, hb ▸ hne⟩
  | r133_startThenOrdinary hs hp hb => exact .inr ⟨hs, hp, (Cfg.ne_of_ordinary hb).1⟩
  | r135_startThenEnd hs hp hb => exact .inr ⟨hs, hp, hb ▸ hne.symm⟩
  | r150_badChecksum hs hb hok => exact ⟨hs, hb, hok⟩
  | r150_unknownKind hs hb hok hk => exact ⟨hs, hb, hok, hk⟩
  | r151_startForEnd hs hb => exact ⟨hs, hb ▸ hne⟩
  | r153_otherForEnd hs hb => exact ⟨hs, (Cfg.ne_of_ordinary hb).2⟩

/-- R155, the other direction: where a reason's row holds, a rule raises it. -/
theorem MalformedCause.rule {cfg : Cfg} {rx : Rx} {b : Byte} {r : Reason} (h : MalformedCause cfg rx b r) :
    ∃ rx', RxRule cfg rx b rx' (.malformed r) := by
  cases r with
  | unexpectedStart =>
    rcases h with ⟨hs, hb⟩ | ⟨hs, hp, hb⟩
    · exact ⟨_, .r114_startForKind hs hb⟩
    · rcases Cfg.end_or_ordinary hb with hb | hb
      · exact ⟨_, .r135_startThenEnd hs hp hb⟩
      · exact ⟨_, .r133_startThenOrdinary hs hp hb⟩
  | prematureEnd =>
    rcases h with ⟨hs, hb⟩ | ⟨hs, hp, hb⟩
    · exact ⟨_, .r115_endForKind hs hb⟩
    · rcases Cfg.start_or_ordinary hb with hb | hb
      · exact ⟨_, .r131_endThenStart hs hp hb⟩
      · exact ⟨_, .r130_endThenOrdinary hs hp hb⟩
  | missingEnd =>
    obtain ⟨hs, hb⟩ := h
    rcases Cfg.start_or_ordinary hb with hb | hb
    · exact ⟨_, .r151_startForEnd hs hb⟩
    · exact ⟨_, .r153_otherForEnd hs hb⟩
  | badChecksum =>
    obtain ⟨hs, hb, hok⟩ := h
    exact ⟨_, .r150_badChecksum hs hb hok⟩
  | unknownKind =>
    obtain ⟨hs, hb, hok, hk⟩ := h
    exact ⟨_, .r150_unknownKind hs hb hok hk⟩

/-- Settles O26: the step and its rule are the same thing, and the rules that raise a reason are the rows of the list. -/
theorem causesOfMalformed : Obligations.CausesOfMalformed := by
  unfold Obligations.CausesOfMalformed
  refine fun cfg rx b r hv _ => ⟨fun ⟨rx', hstep⟩ => (rxStep_rule hstep).malformedCause hv, fun hcause => ?_⟩
  obtain ⟨rx', hrule⟩ := hcause.rule
  exact ⟨rx', rxStep_of_rule hv hrule⟩

/-! ### What the engine does with an answer of the receive step (R180, R182, R183) -/

/-- R180: commit and react. -/
theorem engineRx_of_answer {s : State} {b : Byte} {rx' : Rx} {ev : Event} (h : rxStep s.cfg s.rx b = .ok (rx', ev)) :
    engineRx b s = react ev { s with rx := rx' } := by
  simp only [engineRx, h]

/-- R183: `NeedMoreData` is the commit alone. -/
theorem engineRx_of_more {s : State} {b : Byte} {rx' : Rx} (h : rxStep s.cfg s.rx b = .ok (rx', .needMoreData)) :
    engineRx b s = .next { s with rx := rx' } :=
  engineRx_of_answer h

/-- R182: `Malformed` is logged with the position of the byte and answered with one NACK. -/
theorem engineRx_of_malformed {s : State} {b : Byte} {rx' : Rx} {r : Reason}
    (h : rxStep s.cfg s.rx b = .ok (rx', .malformed r)) : engineRx b s = .next (s.nacked rx' r s.rxCount) := by
  rw [engineRx_of_answer h, State.nacked, ← encodeFrame_empty]
  rfl

section Step

variable {s : State} {b : Byte} {rest : List Input} {rx' : Rx} (hv : s.cfg.Valid) (hin : s.inputs = .rx b :: rest)
include hv hin

/-- R183 for the step that takes the byte. -/
theorem step_of_more (h : rxStep s.cfg s.rx b = .ok (rx', .needMoreData)) :
    step s = .next { s.took rest with rx := rx' } := by
  rw [step_rx hv hin, State.consume_eq_took hin]
  exact engineRx_of_more h

/-- R182 for the step that takes the byte, which is counted first. -/
theorem step_of_malformed {r : Reason} (h : rxStep s.cfg s.rx b = .ok (rx', .malformed r)) :
    step s = .next ((s.took rest).nacked rx' r (s.rxCount + 1)) := by
  rw [step_rx hv hin, State.consume_eq_took hin]
  exact engineRx_of_malformed (s := s.took rest) h

end Step

/-! ### AwaitingStart and Kind (R111 to R116) -/

/-- Settles O14: R111 for END and for the byte received. -/
theorem garbageIsDiscarded : Obligations.GarbageIsDiscarded := by
  unfold Obligations.GarbageIsDiscarded
  intro s hv hs
  have discard : ∀ {b : Byte}, b ≠ s.cfg.startByte → rxStep s.cfg s.rx b = .ok (s.rx, .needMoreData) :=
    fun hb => rxStep_of_rule hv (.r111_discard hs hb)
  exact ⟨engineRx_of_more (discard (Cfg.start_ne_end hv).symm), fun b rest hin hb => step_of_more hv hin (discard hb)⟩

/-- Settles O15: R112, which needs no valid configuration: START is classified first. -/
theorem startBeginsAccumulation : Obligations.StartBeginsAccumulation := by
  unfold Obligations.StartBeginsAccumulation
  intro s hs
  have hstep : rxStep s.cfg s.rx s.cfg.startByte = .ok (s.rx.begin, .needMoreData) := by
    simp only [rxStep, hs, rxAwaitingStart, Cfg.classify_start, more]
  exact engineRx_of_more hstep

/-- Settles O16: R114 and R115. -/
theorem sentinelWhereKindIsDue : Obligations.SentinelWhereKindIsDue := by
  unfold Obligations.SentinelWhereKindIsDue
  intro s hv hs
  exact ⟨⟨_, engineRx_of_malformed (rxStep_of_rule hv (.r114_startForKind hs rfl))⟩,
    ⟨_, engineRx_of_malformed (rxStep_of_rule hv (.r115_endForKind hs rfl))⟩⟩

/-- Settles O17: R116. -/
theorem kindIsLatched : Obligations.KindIsLatched := by
  unfold Obligations.KindIsLatched
  intro s b rest hv hs hin hb
  exact step_of_more hv hin (rxStep_of_rule hv (.r116_latchKind hs hb))

/-! ### Length and Payload (R120 to R126) -/

/-- Settles O18: the two branches of R120. -/
theorem lengthIsLatched : Obligations.LengthIsLatched := by
  unfold Obligations.LengthIsLatched
  intro s b rest hv hs hin
  exact ⟨fun hb => step_of_more hv hin (rxStep_of_rule hv (.r120_latchEmptyLength hs hb)),
    fun hb => step_of_more hv hin (rxStep_of_rule hv (.r120_latchLength hs hb))⟩

/-- Settles O19: R124 for each sentinel. -/
theorem sentinelInPayloadIsHeld : Obligations.SentinelInPayloadIsHeld := by
  unfold Obligations.SentinelInPayloadIsHeld
  intro s hv hs
  exact ⟨engineRx_of_more (rxStep_of_rule hv (.r124_hold hs s.cfg.isSentinel_start)),
    engineRx_of_more (rxStep_of_rule hv (.r124_hold hs s.cfg.isSentinel_end))⟩

/-- Settles O20: R126, whose `BUF` is a put at `CNT`. -/
theorem ordinaryPayloadByteIsStored : Obligations.OrdinaryPayloadByteIsStored := by
  unfold Obligations.OrdinaryPayloadByteIsStored
  intro s b rest hv hs hlt hin hb
  exact ⟨_, step_of_more hv hin (rxStep_of_rule hv (.r126_store hs hb (byte_lt_bufSize hlt))),
    Memory.get_put_same _ _ _, fun i hi => Memory.get_put_other _ _ hi⟩

/-! ### PayloadPend (R128 to R135) -/

/-- R128 as the engine's step: the held sentinel received again is put at `BUF[CNT]` and counted once. -/
theorem engineRx_doubled {s : State} {b : Byte} (hv : s.cfg.Valid) (hs : s.rx.rxs = .payloadPend)
    (hlt : s.rx.cnt < s.rx.lenR) (hb : s.cfg.isSentinel b = true) (hp : s.rx.pendR = b) :
    engineRx b s = .next { s with rx := s.rx.stored s.cfg b } :=
  engineRx_of_more (rxStep_of_rule hv (.r128_doubled hs (hp ▸ hb) hp.symm (byte_lt_bufSize hlt)))

/-- Settles O21: `engineRx_doubled` for each sentinel. -/
theorem doubledSentinelIsOneByte : Obligations.DoubledSentinelIsOneByte := by
  unfold Obligations.DoubledSentinelIsOneByte
  intro s hv hs hlt
  exact ⟨fun hp => ⟨_, engineRx_doubled hv hs hlt s.cfg.isSentinel_start hp,
      Memory.get_put_same _ _ _, fun i hi => Memory.get_put_other _ _ hi⟩,
    fun hp => ⟨_, engineRx_doubled hv hs hlt s.cfg.isSentinel_end hp,
      Memory.get_put_same _ _ _, fun i hi => Memory.get_put_other _ _ hi⟩⟩

/-- Settles O22: R130 and R131 for a held END, R133 and R135 for a held START. -/
theorem singleSentinelInPayload : Obligations.SingleSentinelInPayload := by
  unfold Obligations.SingleSentinelInPayload
  refine fun s hv hs => ⟨fun hp => ⟨fun b rest hin hb => ?r130, ?r131⟩, fun hp => ⟨fun b rest hin hb => ?r133, ?r135⟩⟩
  case r130 => exact ⟨_, step_of_malformed hv hin (rxStep_of_rule hv (.r130_endThenOrdinary hs hp hb))⟩
  case r131 => exact ⟨_, engineRx_of_malformed (rxStep_of_rule hv (.r131_endThenStart hs hp rfl))⟩
  case r133 => exact ⟨_, step_of_malformed hv hin (rxStep_of_rule hv (.r133_startThenOrdinary hs hp hb))⟩
  case r135 => exact ⟨_, engineRx_of_malformed (rxStep_of_rule hv (.r135_startThenEnd hs hp rfl))⟩

/-! ### Checksum and End (R140 to R153) -/

/-- Settles O23: R140. -/
theorem checksumIsCompared : Obligations.ChecksumIsCompared := by
  unfold Obligations.ChecksumIsCompared
  intro s b rest hv hs hin
  exact step_of_more hv hin (rxStep_of_rule hv (.r140_compare hs))

/-- Settles O24: the three outcomes of R150. -/
theorem verdictAtEnd : Obligations.VerdictAtEnd := by
  unfold Obligations.VerdictAtEnd
  refine fun s hv hs => ⟨fun hok => ?badChecksum, fun hok hk => ?unknownKind, fun hok hk p hp => ?frame⟩
  case badChecksum => exact ⟨_, engineRx_of_malformed (rxStep_of_rule hv (.r150_badChecksum hs rfl hok))⟩
  case unknownKind => exact ⟨_, engineRx_of_malformed (rxStep_of_rule hv (.r150_unknownKind hs rfl hok hk))⟩
  case frame =>
    have hstep := rxStep_of_rule hv (.r150_frame p hs rfl hok hk hp)
    exact ⟨hstep, engineRx_of_answer hstep⟩

/-- Settles O25: R151 and R153. -/
theorem missingEnd : Obligations.MissingEnd := by
  unfold Obligations.MissingEnd
  intro s hv hs
  exact ⟨⟨_, engineRx_of_malformed (rxStep_of_rule hv (.r151_startForEnd hs rfl))⟩,
    fun b rest hin hb => ⟨_, step_of_malformed hv hin (rxStep_of_rule hv (.r153_otherForEnd hs hb))⟩⟩

/-! ### The two SENTINEL rows complete (R110, R225) -/

/-- R186: a dispatch completes when the identity string and every answer of the application keep the bound. -/
theorem dispatch_completes {s : State} (hid : PayloadFits s.cfg.identityString) (happ : s.AppFits) (c : Command) :
    Completes (dispatch c s) := by
  obtain ⟨k, args⟩ := c
  cases k with
  | getIdentity => exact ⟨_, respond_eq hid s⟩
  | getData =>
    simp only [dispatch, dispatchGetData]
    split
    case h_1 a rest h => exact ⟨_, respond_eq (happ a (by simp [h])) _⟩
    case h_2 => exact ⟨_, rfl⟩

/-- R180 to R184: so every reaction completes. -/
theorem react_completes {s : State} (hid : PayloadFits s.cfg.identityString) (happ : s.AppFits) (ev : Event) :
    Completes (react ev s) := by
  cases ev with
  | needMoreData => exact ⟨_, rfl⟩
  | malformed r => exact ⟨_, rfl⟩
  | frame k p =>
    simp only [react, reactFrame]
    split
    case h_1 =>
      split
      case h_1 c _ => exact dispatch_completes (s := s.deliver (.command ⟨c, p⟩)) hid happ ⟨c, p⟩
      case h_2 => exact ⟨_, rfl⟩
    case h_2 => split <;> exact ⟨_, rfl⟩

/-- R225: the engine's receive step completes on every byte in a state that meets the invariant. -/
theorem engineRx_completes {s : State} (hi : s.Inv) (happ : s.AppFits) (b : Byte) : Completes (engineRx b s) := by
  obtain ⟨⟨-, hid⟩, hrx, -⟩ := hi
  obtain ⟨rx', ev, hstep⟩ := rxStep_total hrx b
  rw [engineRx_of_answer hstep]
  exact react_completes (s := { s with rx := rx' }) hid happ ev

/-- Settles O36: `engineRx_completes` for each sentinel. -/
theorem sentinelBytesComplete : Obligations.SentinelBytesComplete := by
  unfold Obligations.SentinelBytesComplete
  exact fun s hi happ => ⟨engineRx_completes hi happ _, engineRx_completes hi happ _⟩

end Sys2Proof.Machine
end

section
/-! SUPPORT. What an encoded frame says (41_tx_encode.md R160, R161): the kind byte and the payload can be read off it, and
the role of its sender cannot. The statement EncodeInjective. -/

namespace Sys2Proof

/-- R89: payloads of one length can be told apart, with the bytes that follow them, by their escaped form. -/
theorem Cfg.escape_append_injective {cfg : Cfg} {p p' rest rest' : List Byte} (hlen : p.length = p'.length)
    (h : cfg.escape p ++ rest = cfg.escape p' ++ rest') : p = p' ∧ rest = rest' := by
  have hu := unescape_escape cfg p rest
  rw [h, hlen, unescape_escape] at hu
  cases hu
  exact ⟨rfl, rfl⟩

/-- R73: a payload that fits has a LENGTH byte of its own length. -/
theorem length_eq_of_lengthByte_eq {p p' : List Byte} (hp : PayloadFits p) (hp' : PayloadFits p')
    (h : BitVec.ofNat 8 p.length = BitVec.ofNat 8 p'.length) : p.length = p'.length := by
  rw [← toNat_length hp, h, toNat_length hp']

/-- R233: the frame of a kind byte and a payload is the same whichever end of the link encodes it. -/
theorem encodeFrame_role (cfg : Cfg) (r : Role) (k : Byte) (p : List Byte) :
    encodeFrame { cfg with role := r } k p = encodeFrame cfg k p := rfl

/-- Settles O10: equal frames have equal KIND and LENGTH bytes, and behind equal LENGTH bytes the escaped payloads tell the
payloads apart. -/
theorem encodeInjective : Obligations.EncodeInjective := by
  unfold Obligations.EncodeInjective
  intro cfg k k' p p' hp hp' h
  simp only [encodeFrame, List.cons_append, List.nil_append, List.cons.injEq, true_and] at h
  obtain ⟨hkind, hlength, hbody⟩ := h
  obtain ⟨hpayload, -⟩ := Cfg.escape_append_injective (length_eq_of_lengthByte_eq hp hp' hlength) hbody
  exact ⟨hkind, hpayload⟩

end Sys2Proof
end

section
/-! SUPPORT. Sending frames (41_tx_encode.md R162, R163, R171, R172): the send request within its bound and over it, and what
a receiver makes of the frames sent. The statements SendRequest, LongSendRequestIsRefused and FramesArriveInOrder. -/

namespace Sys2Proof.Machine

open Sys2Proof

/-! ### Send requests -/

/-- R163: sending leaves `TXS` idle and the frame behind what is transmitted already. -/
theorem State.send_eq_sent (s : State) (k : Byte) (p : List Byte) : s.send k p = s.sent (encodeFrame s.cfg k p) := rfl

/-- R171: a request whose payload fits is carried out. -/
theorem txRequest_of_fits {p : List Byte} (hp : PayloadFits p) (k : Byte) (s : State) :
    txRequest k p s = .next (s.sent (encodeFrame s.cfg k p)) := by
  rw [txRequest, if_pos hp, State.send_eq_sent]

/-- R162, U6: a request with a longer payload is refused. -/
theorem txRequest_of_long {p : List Byte} (hp : 255 < p.length) (k : Byte) (s : State) :
    txRequest k p s = .refused .payloadTooLong := by
  rw [txRequest, if_neg (Nat.not_le.2 hp)]

/-- Settles O40: the step of a request is `txRequest`, whose payload fits. -/
theorem sendRequest : Obligations.SendRequest := by
  unfold Obligations.SendRequest
  intro s k p rest hv hin hp
  rw [step_request hv hin, txRequest_of_fits hp]

/-- Settles O41: the step of a request is `txRequest`, whose payload is too long. -/
theorem longSendRequestIsRefused : Obligations.LongSendRequestIsRefused := by
  unfold Obligations.LongSendRequestIsRefused
  intro s k p rest hv hin hp
  rw [step_request hv hin, txRequest_of_long hp]

/-! ### Frames received one after another -/

/-- Settles O54: by induction on the frames. Each is emitted by `rxRun_goodFrame`, whichever role sent it, and leaves the
receiver in `AwaitingStart` for the next. -/
theorem framesArriveInOrder : Obligations.FramesArriveInOrder := by
  unfold Obligations.FramesArriveInOrder
  intro cfg sender rx frames hv hs hframes
  simp only [encodeFrame_role]
  induction frames generalizing rx with
  | nil => exact ⟨rx, [], rfl, rfl, hs⟩
  | cons f frames ih =>
    obtain ⟨⟨hkind, hfits⟩, hrest⟩ := List.forall_mem_cons.1 hframes
    obtain ⟨r, evs, hrun, hdec, hr⟩ := rxRun_goodFrame hv hs hkind hfits
    obtain ⟨rx', evs', hrun', hdec', hs'⟩ := ih r hr hrest
    refine ⟨rx', evs ++ evs', rxRun_append hrun hrun', ?_, hs'⟩
    rw [decisions_append, hdec, hdec', List.map_cons, List.singleton_append]

end Sys2Proof.Machine
end

section
/-! SUPPORT. The reactions by role (42_engine_dispatch.md R180 to R199): the Dispatcher's one answer and what drawing it uses
up, the meaning of a KIND row at either end of the link, and what one received byte can send and hand upward. The statements
ReceivedByteStep, NeedMoreDataDoesNothing, MalformedDrawsOneNack, those on Messages and Commands by role, OneFrameOutPerEvent
and OnlyGoodCommandsAreDispatched. -/

namespace Sys2Proof.Machine

open Sys2Proof

/-! ### The step of a received byte (R180, R182, R183) -/

/-- Settles O13: `step_rx`, whichever instruction the byte runs; the right side is `engineRx` on the state with the byte
taken. -/
theorem receivedByteStep : Obligations.ReceivedByteStep := by
  unfold Obligations.ReceivedByteStep
  intro s b rest hv hin
  rw [step_rx hv hin, State.consume_of_rx hin]
  rfl

/-- Settles O27: `step_of_more`. -/
theorem needMoreDataDoesNothing : Obligations.NeedMoreDataDoesNothing := by
  unfold Obligations.NeedMoreDataDoesNothing
  exact fun s b rest rx' hv hin hstep => step_of_more hv hin hstep

/-- Settles O28: `step_of_malformed`, the entry being tagged with the position of the byte. -/
theorem malformedDrawsOneNack : Obligations.MalformedDrawsOneNack := by
  unfold Obligations.MalformedDrawsOneNack
  exact fun s b rest rx' r hv hin hstep => ⟨_, step_of_malformed hv hin hstep⟩

/-! ### The Dispatcher's answer (R186 to R188) -/

/-- The one Message the Dispatcher answers a Command with: the identity string, or what the application says next. -/
def answerTo (c : Command) (s : State) : Message :=
  match c.kind, s.app with
  | .getIdentity, _ => ⟨.identity, s.cfg.identityString⟩
  | .getData, a :: _ => a.message
  | .getData, [] => (freeAnswer s.freeIdx c.args).message

/-- The state with that answer drawn: only GET_DATA asks the application (log entry 6). -/
def afterDraw (c : Command) (s : State) : State :=
  match c.kind, s.app with
  | .getIdentity, _ => s
  | .getData, _ :: rest => { s with app := rest }
  | .getData, [] => { s with freeIdx := s.freeIdx + 1 }

section AfterDraw
variable (c : Command) (s : State)

@[simp] theorem afterDraw_cfg : (afterDraw c s).cfg = s.cfg := by unfold afterDraw; split <;> rfl
@[simp] theorem afterDraw_rx : (afterDraw c s).rx = s.rx := by unfold afterDraw; split <;> rfl
@[simp] theorem afterDraw_inputs : (afterDraw c s).inputs = s.inputs := by unfold afterDraw; split <;> rfl
@[simp] theorem afterDraw_txq : (afterDraw c s).txq = s.txq := by unfold afterDraw; split <;> rfl
@[simp] theorem afterDraw_evq : (afterDraw c s).evq = s.evq := by unfold afterDraw; split <;> rfl
@[simp] theorem afterDraw_upq : (afterDraw c s).upq = s.upq := by unfold afterDraw; split <;> rfl

end AfterDraw

/-- R186: the Dispatcher is the sending of its answer. -/
theorem dispatch_eq_respond (c : Command) (s : State) : dispatch c s = respond (answerTo c s) (afterDraw c s) := by
  obtain ⟨k, args⟩ := c
  cases k with
  | getIdentity => rfl
  | getData =>
    simp only [dispatch, dispatchGetData, answerTo, afterDraw]
    cases s.app with
    | cons a rest => rfl
    | nil => exact (respond_eq (freeAnswer_fits _ _) _).symm

/-- R163, R166: sending a Message leaves its frame behind what is transmitted already. -/
theorem State.sendMessage_eq_sent (s : State) (m : Message) : s.sendMessage m = s.sent (encode s.cfg m.toInstr) := by
  rw [encode_message]
  rfl

/-- R186: an answer that keeps the bound is the one frame sent. -/
theorem dispatch_of_fits {c : Command} {s : State} (h : PayloadFits (answerTo c s).payload) :
    dispatch c s = .next ((afterDraw c s).sent (encode s.cfg (answerTo c s).toInstr)) := by
  rw [dispatch_eq_respond, respond_eq h, State.sendMessage_eq_sent, afterDraw_cfg]

/-- R186: the answer keeps the bound where the configuration and the application do. -/
theorem answerTo_fits {s : State} (hv : s.cfg.Valid) (happ : s.AppFits) (c : Command) :
    PayloadFits (answerTo c s).payload := by
  obtain ⟨-, hid⟩ := hv
  unfold answerTo
  split
  case h_1 => exact hid
  case h_2 a _ _ h => exact happ a (by simp [h])
  case h_3 => exact freeAnswer_fits _ _

/-! ### The reaction to a Frame event (R181, R184) -/

/-- R8: at a Host the accepted kinds are those of the Messages. -/
theorem Cfg.mem_rxKinds_of_host {cfg : Cfg} (hr : cfg.role = .host) {k : Byte} :
    k ∈ cfg.rxKinds ↔ ∃ m, cfg.msgCode m = k := by
  simp only [Cfg.rxKinds, hr, Cfg.mem_msgCodes]

/-- R8: at a Device the accepted kinds are those of the Commands. -/
theorem Cfg.mem_rxKinds_of_device {cfg : Cfg} (hr : cfg.role = .device) {k : Byte} :
    k ∈ cfg.rxKinds ↔ ∃ c, cfg.cmdCode c = k := by
  simp only [Cfg.rxKinds, hr, Cfg.mem_cmdCodes]

/-- R184: a Message at a Host is delivered. -/
theorem react_message_of_host {s : State} (hv : s.cfg.Valid) (hr : s.cfg.role = .host) (m : Message) :
    react (.frame (s.cfg.msgCode m.kind) m.payload) s = .next (s.deliver (.message m)) := by
  simp only [react, reactFrame, hr, Cfg.msgOf_msgCode hv, reactMessage]

/-- R181: a Command at a Device is handed to the Dispatcher. -/
theorem react_command_of_device {s : State} (hv : s.cfg.Valid) (hr : s.cfg.role = .device) (c : Command) :
    react (.frame (s.cfg.cmdCode c.kind) c.args) s = dispatch c (s.deliver (.command c)) := by
  simp only [react, reactFrame, hr, Cfg.cmdOf_cmdCode hv, reactCommand]

/-! ### The meaning of the KIND rows, by role (R187 to R198) -/

/-- R182: taking `Malformed` in the words of the statements. -/
theorem State.takeMalformed_eq_nacked (s : State) (r : Reason) : s.takeMalformed r = s.nacked s.rx r s.rxCount := by
  rw [State.nacked, ← encodeFrame_empty]
  rfl

section Rows
variable {s : State}

theorem exec_message_of_host (hr : s.cfg.role = .host) (m : Message) :
    exec m.toInstr s = .next (s.handedUp (.message m)) := by
  simp only [exec_message, receiveMessage, hr]
  rfl

theorem exec_message_of_device (hr : s.cfg.role = .device) (m : Message) :
    exec m.toInstr s = .next (s.nacked s.rx.idled .unknownKind s.rxCount) := by
  simp only [exec_message, receiveMessage, hr, State.takeMalformed_eq_nacked]
  rfl

theorem exec_command_of_host (hr : s.cfg.role = .host) (c : Command) :
    exec c.toInstr s = .next (s.nacked s.rx.idled .unknownKind s.rxCount) := by
  simp only [exec_command, receiveCommand, hr, State.takeMalformed_eq_nacked]
  rfl

/-- R181, R186: the Command is handed upward, its answer drawn, and the answer's frame sent. -/
theorem exec_command_of_device (hr : s.cfg.role = .device) {c : Command} (h : PayloadFits (answerTo c s).payload) :
    exec c.toInstr s
      = .next ((afterDraw c (s.handedUp (.command c))).sent (encode s.cfg (answerTo c s).toInstr)) := by
  simp only [exec_command, receiveCommand, hr]
  exact dispatch_of_fits (s := s.handedUp (.command c)) h

end Rows

/-- Settles O30: the kind accepted is a Message's, which is delivered; and the six Message rows. -/
theorem messageAtHostIsDelivered : Obligations.MessageAtHostIsDelivered := by
  unfold Obligations.MessageAtHostIsDelivered
  refine ⟨fun s k p hv hr hk => ?event, fun s p hr => ?rows⟩
  case event =>
    obtain ⟨m, rfl⟩ := (Cfg.mem_rxKinds_of_host hr).1 hk
    exact ⟨m, rfl, react_message_of_host hv hr ⟨m, p⟩⟩
  case rows =>
    have row : ∀ k, exec (Message.toInstr ⟨k, p⟩) s = .next (s.handedUp (.message ⟨k, p⟩)) :=
      fun k => exec_message_of_host hr ⟨k, p⟩
    exact ⟨row .ack, row .nack, row .success, row .error, row .identity, row .data⟩

/-- Settles O31: the six rows are the Messages with that payload. -/
theorem messageAtDeviceIsRejected : Obligations.MessageAtDeviceIsRejected := by
  unfold Obligations.MessageAtDeviceIsRejected
  intro s p hr i hi
  have hmem : i ∈ MessageKind.all.map fun k => Message.toInstr ⟨k, p⟩ := hi
  obtain ⟨k, -, rfl⟩ := List.mem_map.1 hmem
  exact ⟨_, exec_message_of_device hr ⟨k, p⟩⟩

/-- Settles O32: the two rows are the Commands with those arguments. -/
theorem commandAtHostIsRejected : Obligations.CommandAtHostIsRejected := by
  unfold Obligations.CommandAtHostIsRejected
  intro s args hr i hi
  have hmem : i ∈ CommandKind.all.map fun k => Command.toInstr ⟨k, args⟩ := hi
  obtain ⟨k, -, rfl⟩ := List.mem_map.1 hmem
  exact ⟨_, exec_command_of_host hr ⟨k, args⟩⟩

/-- Settles O33: the answer to GET_IDENTITY is the configured string, which fits in a valid configuration; nothing is
drawn. -/
theorem getIdentityIsAnswered : Obligations.GetIdentityIsAnswered := by
  unfold Obligations.GetIdentityIsAnswered
  intro s args ⟨_, hid⟩ hr
  exact exec_command_of_device (c := ⟨.getIdentity, args⟩) hr hid

/-- R188: GET_DATA where the application's next answer is listed. -/
theorem exec_getData_of_listed {s : State} {a : AppAnswer} {rest : List AppAnswer} (hr : s.cfg.role = .device)
    (args : List Byte) (happ : s.app = a :: rest) (hp : PayloadFits a.message.payload) :
    exec (.getData args) s = .next
      { (s.handedUp (.command ⟨.getData, args⟩)).sent (encode s.cfg a.message.toInstr) with app := rest } := by
  have hanswer : answerTo ⟨.getData, args⟩ s = a.message := by simp only [answerTo, happ]
  have hdraw : afterDraw ⟨.getData, args⟩ (s.handedUp (.command ⟨.getData, args⟩))
      = { s.handedUp (.command ⟨.getData, args⟩) with app := rest } := by
    simp only [afterDraw, State.handedUp, happ]
  have h := exec_command_of_device (c := ⟨.getData, args⟩) hr (hanswer ▸ hp)
  rw [hanswer, hdraw] at h
  exact h

/-- R186: GET_DATA where no answer is listed and a free one is drawn. -/
theorem exec_getData_of_free {s : State} (hr : s.cfg.role = .device) (args : List Byte) (happ : s.app = []) :
    exec (.getData args) s = .next
      { (s.handedUp (.command ⟨.getData, args⟩)).sent (encode s.cfg (freeAnswer s.freeIdx args).message.toInstr) with
        freeIdx := s.freeIdx + 1 } := by
  have hanswer : answerTo ⟨.getData, args⟩ s = (freeAnswer s.freeIdx args).message := by simp only [answerTo, happ]
  have hdraw : afterDraw ⟨.getData, args⟩ (s.handedUp (.command ⟨.getData, args⟩))
      = { s.handedUp (.command ⟨.getData, args⟩) with freeIdx := s.freeIdx + 1 } := by
    simp only [afterDraw, State.handedUp, happ]
  have h := exec_command_of_device (c := ⟨.getData, args⟩) hr (hanswer ▸ freeAnswer_fits _ _)
  rw [hanswer, hdraw] at h
  exact h

/-- Settles O34: `exec_getData_of_listed` for an answer that is data and for one that is a failure. -/
theorem getDataIsAnswered : Obligations.GetDataIsAnswered := by
  unfold Obligations.GetDataIsAnswered
  exact fun s args hr => ⟨fun p rest happ hp => exec_getData_of_listed hr args happ hp,
    fun p rest happ hp => exec_getData_of_listed hr args happ hp⟩

/-- Settles O35: the free answer is DATA or ERROR, with a payload that fits. -/
theorem getDataWithFreeAnswer : Obligations.GetDataWithFreeAnswer := by
  unfold Obligations.GetDataWithFreeAnswer
  intro s args hr happ
  have h := exec_getData_of_free hr args happ
  have hp := freePayload_fits s.freeIdx args
  rcases freeAnswer_message s.freeIdx args with hm | hm <;> rw [hm] at h
  · exact ⟨_, _, .inl rfl, hp, h⟩
  · exact ⟨_, _, .inr rfl, hp, h⟩

/-! ### What one step sends and hands upward (R189, R199) -/

/-- R150: a `Frame` event comes from the verdict alone. -/
theorem RxRule.frame_inv {cfg : Cfg} {rx rx' : Rx} {b k : Byte} {p : List Byte}
    (h : RxRule cfg rx b rx' (.frame k p)) :
    rx.rxs = .endPos ∧ b = cfg.endByte ∧ rx.csok = true ∧ rx.kindR = k ∧ k ∈ cfg.rxKinds ∧
      rx.framePayload = some p := by
  cases h with
  | r150_frame _ hs hb hok hk hp => exact ⟨hs, hb, hok, rfl, hk, hp⟩

/-- R180: the step of a received byte that ends in a next state is a reaction to the event of the receive step. -/
theorem reacted_of_step {s t : State} {b : Byte} {rest : List Input} {rx' : Rx} {ev : Event}
    (hin : s.inputs = .rx b :: rest) (hr : rxStep s.cfg s.rx b = .ok (rx', ev)) (h : step s = .next t) :
    Reacted { s.took rest with rx := rx' } ev t := by
  obtain ⟨hv, -⟩ := step_cases h
  rw [step_rx hv hin, State.consume_eq_took hin, engineRx_of_answer (s := s.took rest) hr] at h
  rcases react_cases ev { s.took rest with rx := rx' } with ⟨t', he, ht⟩ | he
  · cases he.symm.trans h
    exact ht
  · cases he.symm.trans h

/-- Settles O37: the cases of a reaction at a Device. A `Frame` event has an accepted kind (`RxRule.frame_inv`), so it is
never answered with a NACK. -/
theorem oneFrameOutPerEvent : Obligations.OneFrameOutPerEvent := by
  unfold Obligations.OneFrameOutPerEvent
  intro s t b rest rx' ev hrole hin hr h
  cases reacted_of_step hin hr h with
  | ofNothing => exact ⟨fun _ => rfl, by simp, by simp⟩
  | ofMalformed r => exact ⟨by simp, fun _ _ => rfl, by simp⟩
  | ofUnknown k p hk =>
    obtain ⟨-, -, -, -, hk', -⟩ := (rxStep_rule hr).frame_inv
    exact absurd hk' hk
  | ofCommand c p _ m _ hd =>
    refine ⟨by simp, by simp, fun _ _ _ => ⟨m, hd.fits, ?_, ?_⟩⟩
    · rcases hd.kind with hk | hk | hk <;> simp [hk]
    · rw [encode_message]
      exact hd.txq
  | ofMessage _ _ hrole' => cases hrole.symm.trans hrole'

/-- R181: at a Device a reaction hands a Command upward or nothing, and the Command is that of the event. -/
theorem Reacted.upq_of_device {s t : State} {ev : Event} (h : Reacted s ev t) (hr : s.cfg.role = .device) :
    t.upq = s.upq ∨ ∃ c : Command, ev = .frame (s.cfg.cmdCode c.kind) c.args ∧ t.upq = s.upq ++ [.command c] := by
  cases h with
  | ofNothing | ofMalformed | ofUnknown => exact .inl rfl
  | ofCommand c p _ m _ hd => exact .inr ⟨⟨c, p⟩, rfl, hd.upq⟩
  | ofMessage _ _ hr' => cases hr.symm.trans hr'

/-- Settles O38: only a received byte can change `UPQ`, by `Reacted.upq_of_device`; the `Frame` event it then raised comes
from the verdict (`RxRule.frame_inv`). -/
theorem onlyGoodCommandsAreDispatched : Obligations.OnlyGoodCommandsAreDispatched := by
  unfold Obligations.OnlyGoodCommandsAreDispatched
  intro s t hrole hnr h hne
  obtain ⟨-, hst⟩ := step_cases h
  cases hst with
  | idle => exact absurd rfl hne
  | received b rest rx' ev _ hin hr _ =>
    rcases (reacted_of_step hin hr h).upq_of_device hrole with hupq | ⟨c, rfl, hupq⟩
    · exact absurd hupq hne
    · obtain ⟨hs, rfl, hok, hk, -, hp⟩ := (rxStep_rule hr).frame_inv
      exact ⟨c, hupq, hs, hok, hk, hp, rest, hin⟩
  | requested => exact absurd rfl hne
  | wasReset rest hin => exact absurd hin (hnr rest)

end Sys2Proof.Machine
end

section
/-! SUPPORT. Whole frames through the machine (40_rx_decode.md R158; 42_engine_dispatch.md R181, R184, R187, R188): the run
over an encoded frame is the reaction to it. The statements HostReceivesMessage and DeviceAnswersCommand. -/

namespace Sys2Proof.Machine

open Sys2Proof

/-- A run of one step is that step. -/
theorem run_one (s : State) : Sys2Proof.core.run 1 s = step s := by
  have hstep : Sys2Proof.core.step s = step s := rfl
  cases h : step s <;> simp only [Host.Core.run, hstep, h] <;> rfl

/-- R150: END, received where the END of an intact frame of an accepted kind is due, is reacted to as that frame. -/
theorem step_of_goodEnd {s : State} {k : Byte} {p : List Byte} {rest : List Input} (hv : s.cfg.Valid)
    (hin : s.inputs = .rx s.cfg.endByte :: rest) (hs : s.rx.rxs = .endPos) (hkind : s.rx.kindR = k)
    (hpay : s.rx.framePayload = some p) (hok : s.rx.csok = true) (hk : k ∈ s.cfg.rxKinds) :
    step s = react (.frame k p) { s.took rest with rx := s.rx.idled } := by
  subst hkind
  rw [step_rx hv hin, State.consume_eq_took hin]
  exact engineRx_of_answer (s := s.took rest) (rxStep_of_rule hv (.r150_frame p hs rfl hok hk hpay))

/-- R158, R180: the bytes of an encoded frame of an accepted kind, received from `AwaitingStart`, are taken without a trace
up to the END, whose step reacts to the frame. -/
theorem run_goodFrame {s : State} {k : Byte} {p : List Byte} {rest : List Input} (hv : s.cfg.Valid)
    (hs : s.rx.rxs = .awaitingStart) (hk : k ∈ s.cfg.rxKinds) (hp : PayloadFits p)
    (hin : s.inputs = (encodeFrame s.cfg k p).map .rx ++ rest) :
    ∃ rx' n, rx'.rxs = .awaitingStart ∧
      Sys2Proof.core.run (encodeFrame s.cfg k p).length s
        = react (.frame k p) { s with rx := rx', inputs := rest, rxCount := n } := by
  obtain ⟨r, hrun, hend, hkind, hpay, hok⟩ := rxRun_toEnd (c := s.cfg.cs k (BitVec.ofNat 8 p.length) p) hs
    (Cfg.rxKinds_ordinary hv hk) hp
  have hframe : encodeFrame s.cfg k p
      = frameHead s.cfg k p ++ [s.cfg.cs k (BitVec.ofNat 8 p.length) p] ++ [s.cfg.endByte] := by simp [encodeFrame_eq]
  rw [hframe, List.map_append, List.append_assoc] at hin
  rw [hframe, List.length_append, List.length_singleton, run_quiet hv hrun hin, run_one]
  exact ⟨r.idled, _, rfl, step_of_goodEnd (s := { s with rx := r, inputs := .rx s.cfg.endByte :: rest, rxCount := _ })
    hv rfl hend hkind hpay (by simpa using hok) hk⟩

/-- Settles O51: the frame is reacted to (`run_goodFrame`), which at a Host is its delivery. -/
theorem hostReceivesMessage : Obligations.HostReceivesMessage := by
  unfold Obligations.HostReceivesMessage
  intro s m rest ⟨hv, _⟩ hrole hs hp hin
  rw [encode_message] at hin ⊢
  obtain ⟨rx', n, hs', hrun⟩ := run_goodFrame hv hs ((Cfg.mem_rxKinds_of_host hrole).2 ⟨m.kind, rfl⟩) hp hin
  have hreact := react_message_of_host (s := { s with rx := rx', inputs := rest, rxCount := n }) hv hrole m
  exact ⟨_, hrun.trans hreact, rfl, rfl, rfl, rfl, hs'⟩

/-- R188: the answer to GET_DATA is DATA or ERROR. -/
theorem answerTo_getData_kind (args : List Byte) (s : State) :
    (answerTo ⟨.getData, args⟩ s).kind = .data ∨ (answerTo ⟨.getData, args⟩ s).kind = .error := by
  unfold answerTo
  cases s.app with
  | cons a _ => exact a.message_kind
  | nil => exact AppAnswer.message_kind _

/-- Settles O52: the frame is reacted to (`run_goodFrame`), which at a Device is the dispatch of the Command and the sending
of its answer (`dispatch_of_fits`). -/
theorem deviceAnswersCommand : Obligations.DeviceAnswersCommand := by
  unfold Obligations.DeviceAnswersCommand
  intro s c rest ⟨hv, _⟩ hrole hs hp happ hin
  rw [encode_command] at hin ⊢
  obtain ⟨rx', n, hs', hrun⟩ := run_goodFrame hv hs ((Cfg.mem_rxKinds_of_device hrole).2 ⟨c.kind, rfl⟩) hp hin
  have hfits := answerTo_fits hv happ c
  have hreact := react_command_of_device (s := { s with rx := rx', inputs := rest, rxCount := n }) hv hrole c
  refine ⟨_, answerTo c s, hrun.trans (hreact.trans (dispatch_of_fits hfits)), afterDraw_upq _ _,
    congrArg (· ++ _) (afterDraw_txq _ _), hfits, afterDraw_evq _ _, afterDraw_inputs _ _,
    (congrArg Rx.rxs (afterDraw_rx _ _)).trans hs', ?identity, ?listed, ?data⟩
  all_goals
    obtain ⟨k, args⟩ := c
    rintro rfl
  case identity => rfl
  case listed =>
    intro a as hlisted
    simp only [answerTo, hlisted]
    cases a <;> rfl
  case data => exact answerTo_getData_kind args s

end Sys2Proof.Machine
end

section
/-! SUPPORT. Exceptions (60_exceptions.md R225, R233, R236, R240): what the receive step knows of the role, the step with no
input, and that a step is refused on a send request over the bound only. The statements RoleDecidesOnlyTheVerdict,
NoInputNoChange and NothingIsFatal. -/

namespace Sys2Proof.Machine

open Sys2Proof

/-! ### The role (R150, R233) -/

/-- R150: a bad checksum is judged before the kind is, so the verdict does not come to the role. -/
theorem verdict_role_of_badChecksum (cfg : Cfg) (r : Role) {rx : Rx} (h : rx.csok = false) :
    verdict { cfg with role := r } rx = verdict cfg rx := by
  simp only [verdict, if_pos h]

/-- R233: of all receive positions and bytes only the END byte in the End position, which asks for the verdict, can tell
the roles apart. -/
theorem rxStep_role {cfg : Cfg} {r : Role} {rx : Rx} {b : Byte}
    (h : rx.rxs = .endPos → b = cfg.endByte → verdict { cfg with role := r } rx = verdict cfg rx) :
    rxStep { cfg with role := r } rx b = rxStep cfg rx b := by
  unfold rxStep
  cases hs : rx.rxs with
  | endPos =>
    have hclass : Cfg.classify { cfg with role := r } b = cfg.classify b := rfl
    simp only [rxEnd, hclass]
    cases hb : cfg.classify b with
    | stop => exact h hs (Cfg.classify_eq_stop hb)
    | start => rfl
    | ordinary => rfl
  | _ => rfl

/-- Settles O39: `encodeFrame_role` for the encoder; `rxStep_role` for the receive step, where the verdict is not asked for
or finds the checksum bad. -/
theorem roleDecidesOnlyTheVerdict : Obligations.RoleDecidesOnlyTheVerdict := by
  unfold Obligations.RoleDecidesOnlyTheVerdict
  intro cfg r rx b k p _
  refine ⟨encodeFrame_role cfg r k p, fun hne => ?_, fun _ _ hbad => ?_⟩
  · exact rxStep_role fun hs hb => absurd ⟨hs, hb⟩ hne
  · exact rxStep_role fun _ _ => verdict_role_of_badChecksum cfg r hbad

/-! ### No input (R236, R240) -/

/-- Settles O42: `step_idle`. -/
theorem noInputNoChange : Obligations.NoInputNoChange := by
  unfold Obligations.NoInputNoChange
  exact fun _ hv hin => step_idle hv hin

/-! ### Completing and refusing (R225) -/

/-- R35: taking an input writes neither the configuration nor a register, so the invariant stays. -/
theorem State.Inv.consume {s : State} (h : s.Inv) : s.consume.Inv := by
  simpa only [State.Inv, State.consume_cfg, State.consume_rx, State.consume_txs] using h

/-- R225: the step of a received byte completes, whatever the byte. -/
theorem step_rx_completes {s : State} {b : Byte} {rest : List Input} (hi : s.Inv) (happ : s.AppFits)
    (hin : s.inputs = .rx b :: rest) : Completes (step s) := by
  have ⟨hv, _⟩ := hi
  have hconsumed : s.consume.AppFits := by simpa only [State.AppFits, State.consume_app] using happ
  rw [step_rx hv hin]
  exact engineRx_completes hi.consume hconsumed b

/-- R162: a send request that is refused has a payload over the bound. -/
theorem not_fits_of_txRequest_refused {k : Byte} {p : List Byte} {s : State} {r : Refusal}
    (h : txRequest k p s = .refused r) : ¬ PayloadFits p := by
  intro hp
  simp [txRequest_of_fits hp] at h

/-- R225: of the four kinds of step only that of a send request can be refused. -/
theorem request_of_step_refused {s : State} {r : Refusal} (hi : s.Inv) (happ : s.AppFits) (h : step s = .refused r) :
    ∃ k p rest, s.inputs = .request k p :: rest ∧ ¬ PayloadFits p := by
  have ⟨hv, _⟩ := hi
  cases hin : s.inputs with
  | nil => simp [step_idle hv hin] at h
  | cons x rest =>
    cases x with
    | rx b =>
      obtain ⟨t, ht⟩ := step_rx_completes hi happ hin
      simp [ht] at h
    | request k p =>
      rw [step_request hv hin] at h
      exact ⟨k, p, rest, rfl, not_fits_of_txRequest_refused h⟩
    | reset => simp [step_reset hv hin] at h

/-- Settles O45: `step_neverFaults`, `step_rx_completes` and `request_of_step_refused`. -/
theorem nothingIsFatal : Obligations.NothingIsFatal := by
  unfold Obligations.NothingIsFatal
  exact fun s hi happ =>
    ⟨step_neverFaults hi, fun _ _ hin => step_rx_completes hi happ hin, fun _ h => request_of_step_refused hi happ h⟩

end Sys2Proof.Machine
end

section
/-! SUPPORT. The reset step (70_reset_and_hazards.md R260) and the altered payload byte that the checksum detects (R269;
30_encoding.md R94): the statements ResetStep and AlteredPayloadByteIsDetected. -/

namespace Sys2Proof

/-- R88: escaping leaves an ordinary byte of the payload as it is, between the escaped bytes around it. -/
theorem Cfg.escape_around_ordinary {cfg : Cfg} {b : Byte} (hb : cfg.isSentinel b = false) (xs ys : List Byte) :
    cfg.escape (xs ++ [b] ++ ys) = cfg.escape xs ++ [b] ++ cfg.escape ys := by
  simp [Cfg.escape, Cfg.esc, hb]

end Sys2Proof

namespace Sys2Proof.Machine

open Sys2Proof

/-! ### The reset step (R260) -/

/-- Settles O3: `step_reset`, and the fields of `resetStep`; the machine's initial state is reached from itself with a reset
as its only input. -/
theorem resetStepFromAnyState : Obligations.ResetStep := by
  unfold Obligations.ResetStep
  refine ⟨fun s rest hv hin => ⟨_, step_reset hv hin, ?fields⟩, { State.reset with inputs := [.reset] }, rfl, ?initial⟩
  case fields => simp [Rx.reset]
  case initial => exact step_reset Cfg.reference_valid rfl

/-! ### An altered payload byte (R269) -/

/-- Settles O58: the altered bytes are the frame of the altered payload with the CHECKSUM of the original one, which the
checksum tells apart (`Cfg.cs_injective_payload`), so that the frame is rejected (`wrongChecksumIsNeverAFrame`). -/
theorem alteredPayloadByteIsDetected : Obligations.AlteredPayloadByteIsDetected := by
  unfold Obligations.AlteredPayloadByteIsDetected
  intro cfg rx k a b xs ys hv hs hk hp hab ha hb
  have hlen : (xs ++ [b] ++ ys).length = (xs ++ [a] ++ ys).length := by simp
  have hc : cfg.cs k (BitVec.ofNat 8 (xs ++ [a] ++ ys).length) (xs ++ [a] ++ ys)
      ≠ cfg.cs k (BitVec.ofNat 8 (xs ++ [b] ++ ys).length) (xs ++ [b] ++ ys) :=
    hlen ▸ fun h => hab (cfg.cs_injective_payload h)
  have hfits : PayloadFits (xs ++ [b] ++ ys) := hlen.trans_le hp
  obtain ⟨rx', evs, hrun, hdec, -⟩ := wrongChecksumIsNeverAFrame cfg rx k _ _ hv hs hk hfits hc
  rw [hlen, Cfg.escape_around_ordinary hb] at hrun
  refine ⟨_, cfg.escape ys ++ [cfg.cs k (BitVec.ofNat 8 (xs ++ [a] ++ ys).length) (xs ++ [a] ++ ys), cfg.endByte],
    rx', evs, ?frame, ?run, hdec, rfl⟩
  case frame => simp only [encodeFrame, Cfg.escape_around_ordinary ha, ← List.append_assoc]
  case run => simpa only [← List.append_assoc] using hrun

end Sys2Proof.Machine
end

section
/-! SUPPORT. Where a step has no meaning (93_implementation_defined.md U18, U19): an invalid configuration, and a Dispatcher
response over the bound. The statement ContractBreachesAreRefused. -/

namespace Sys2Proof.Machine

open Sys2Proof

/-- U18: a configuration that breaks R7 and R8 is refused, whatever the input. -/
theorem step_of_invalid {s : State} (h : ¬ s.cfg.Valid) : step s = .refused .invalidConfig := by
  simp only [step, if_neg h]

/-- U19: a response over the bound is refused. -/
theorem respond_of_long {m : Message} (h : 255 < m.payload.length) (s : State) :
    respond m s = .refused .dispatcherContract := by
  rw [respond, if_neg (Nat.not_le.2 h)]

/-- U19: so is a Command at a Device whose answer is over the bound. -/
theorem exec_command_of_long {s : State} (hr : s.cfg.role = .device) {c : Command}
    (h : 255 < (answerTo c s).payload.length) : exec c.toInstr s = .refused .dispatcherContract := by
  have hdispatch : exec c.toInstr s = dispatch c (s.handedUp (.command c)) := by
    simp only [exec_command, receiveCommand, hr]
    rfl
  rw [hdispatch, dispatch_eq_respond]
  exact respond_of_long h _

/-- U19: GET_DATA where the application's next answer is listed and over the bound. -/
theorem exec_getData_of_long {s : State} {a : AppAnswer} {rest : List AppAnswer} (hr : s.cfg.role = .device)
    (args : List Byte) (happ : s.app = a :: rest) (hp : 255 < a.message.payload.length) :
    exec (.getData args) s = .refused .dispatcherContract := by
  have hanswer : answerTo ⟨.getData, args⟩ s = a.message := by simp only [answerTo, happ]
  exact exec_command_of_long (c := ⟨.getData, args⟩) hr (hanswer ▸ hp)

/-- Settles O43: `step_of_invalid` for the configuration; `exec_getData_of_long` for an answer that is data and for one that
is a failure. -/
theorem contractBreachesAreRefused : Obligations.ContractBreachesAreRefused := by
  unfold Obligations.ContractBreachesAreRefused
  refine ⟨fun _ h => step_of_invalid h, fun s args p rest hr happ hp => ?_⟩
  rcases happ with hdata | hfailure
  · exact exec_getData_of_long hr args hdata hp
  · exact exec_getData_of_long hr args hfailure hp

end Sys2Proof.Machine
end
